-- ==== Sys2Proof/Word.lean ====
section
/-! DEFINITION. The word types of the engine (spec/00_scope.md R7 to R10) and their plainest arithmetic.
The widths are the spec's own parameters CHARW = 16, PXW = 16, LENW = 24 (log 10). -/

namespace Sys2Proof

/-- A bit, one module of a pattern: `true` is 1, a bar; `false` is 0, a space (R8). -/
abbrev Bit := Bool

/-- A payload or display character, an unsigned integer of CHARW bits (R10, R72). -/
abbrev Character := BitVec 16

/-- A decimal digit value, 4 bits (R28). -/
abbrev Digit := BitVec 4

/-- A Code128 symbol value, 7 bits (R30). -/
abbrev SymbolValue := BitVec 7

/-- The value of a 5-bit group, an index into the palette (R31, R183). -/
abbrev Group := BitVec 5

/-- A pixel dimension of PXW bits: `moduleWidthPx`, `heightPx` (R71). -/
abbrev Px := BitVec 16

/-- A tile descriptor, one word of 40 bits (R78). -/
abbrev TileWord := BitVec 40

/-- `rep(v, k)`: `k` copies of a bit (R8). -/
abbrev rep (v : Bit) (k : Nat) : List Bit := List.replicate k v

end Sys2Proof
end

