-- ==== Sys2Proof/Machine/Registers.lean ====
section
/-! DEFINITION. The transaction-local registers, the general registers of this hardware
(spec/10_state.md R27 to R31), each with the width the spec's tables give it. -/

namespace Sys2Proof.Machine

/-- The register file of one transaction (R28 to R31). -/
structure Registers where
  /-- D: the digit values of all digit characters of the payload, in payload order (R28). -/
  d      : List Digit
  /-- NDIG: how many there are (R28). -/
  ndig   : BitVec 24
  /-- DIG[0..11], the payload digits, and DIG[12], the check digit (R28). -/
  dig    : Vector Digit 13
  /-- SUMO: sum of the 1st, 3rd, ... digits (R28). -/
  sumo   : BitVec 6
  /-- SUME: sum of the 2nd, 4th, ... digits (R28). -/
  sume   : BitVec 6
  /-- TOT: 3*SUME + SUMO (R28). -/
  tot    : BitVec 8
  /-- CHK10: the check digit (R28). -/
  chk10  : BitVec 4
  /-- PAR[0..5]: the parity string selected by DIG[0]; 1 selects the G-code (R29). -/
  par    : Vector Bit 6
  /-- N: the number of data characters (R30). -/
  n      : BitVec 24
  /-- SYM[0..N-1]: the data symbol values (R30). -/
  sym    : List SymbolValue
  /-- POS: the 1-indexed position being weighted (R30). -/
  pos    : BitVec 25
  /-- ACC: the running weighted sum (R30). -/
  acc    : BitVec 64
  /-- CHK103: the check symbol value (R30). -/
  chk103 : SymbolValue
  /-- POL: the polarity flag of widths-to-bits, 1 = bar (R30, R33). -/
  pol    : Bit
  /-- PADDED: the composer's input padded to a multiple of 5 (R31). -/
  padded : List Bit
  /-- NG: the number of 5-bit groups (R31). -/
  ng     : BitVec 32
  /-- GRP[0..NG-1]: the group values (R31). -/
  grp    : List Group
  deriving DecidableEq, Repr, Inhabited

end Sys2Proof.Machine
end

