-- ==== Sys2Proof/Config.lean ====
section
/-! DEFINITION. What is fixed for this hardware: the parameters of spec/00_scope.md R7, and the one free
value of the model (log 4). The constant tables, configuration too, stand in Machine/Tables.lean. -/

namespace Sys2Proof

/-- CHARW: width of a character element (R7; log 10). -/
def Config.charW : Nat := 16

/-- PXW: width of MW and H (R7; log 10). -/
def Config.pxW : Nat := 16

/-- LENW: width of the element count (R7; log 10). -/
def Config.lenW : Nat := 24

/-- NMAX: the largest payload element count, `2^LENW - 1` (R7). -/
def Config.nmax : Nat := 16777215

/-- BLENW: width of the bit-pattern length of a response (R7; log 10). -/
def Config.blenW : Nat := 32

/-- NTW: width of the tile count of a response (R7; log 10). -/
def Config.ntW : Nat := 32

/-- ACCW: width of the Code128 running sum (R7; log 10). -/
def Config.accW : Nat := 64

/-- What the transaction-local registers hold between operations: any value ("has no value between
operations", R27; "any value", U11). A free value with no body, so nothing can be proved of it (log 4). -/
opaque Config.freeRegisters : Nat → Machine.Registers

end Sys2Proof
end

