-- ==== Sys2Proof/Syntax.lean ====
section
/-! DEFINITION. Requests and instructions (spec/30_encoding.md R70 to R73, R80 to R84). One constructor of
`Instr` per row of spec/opcode_table.json. LEN is the payload's length, as in the source, where a string or a
pattern carries its own length (R73). -/

namespace Sys2Proof

/-- The payload elements of a request: characters of CHARW bits, or single bits for COMPOSE (R72, R86). -/
inductive Payload where
  | chars (cs : List Character)
  | bits  (bs : List Bit)
  deriving DecidableEq, Repr

/-- The number of payload elements. -/
def Payload.length : Payload → Nat
  | .chars cs => cs.length
  | .bits bs  => bs.length

/-- A request record as it stands on the request channel: HDR, then the payload elements (R70). -/
structure Request where
  hdr : BitVec 64
  pay : Payload
  deriving DecidableEq, Repr

/-- The instructions. `sel` holds the bits of OP that the row's mask leaves free (R83, R84), `mw` and `h` the
header fields MW and H, `pay` the payload. -/
inductive Instr where
  /-- OP 0x00 (R202) -/
  | renEan13 (mw h : Px) (pay : List Character)
  /-- OP 0x01 (R203) -/
  | renC128 (mw h : Px) (pay : List Character)
  /-- OP 0x10 (R127) -/
  | encEan13 (mw h : Px) (pay : List Character)
  /-- OP 0x11 (R168) -/
  | encC128 (mw h : Px) (pay : List Character)
  /-- OP 0x20 (R111) -/
  | chkEan13 (mw h : Px) (pay : List Character)
  /-- OP 0x21 (R148) -/
  | chkC128 (mw h : Px) (pay : List Character)
  /-- OP 0x30 (R188) -/
  | compose (mw h : Px) (pay : List Bit)
  /-- OP 0x02 to 0x03 (R83, R204) -/
  | unsupRen23 (sel : BitVec 1) (mw h : Px) (pay : List Character)
  /-- OP 0x04 to 0x07 (R83, R204) -/
  | unsupRen47 (sel : BitVec 2) (mw h : Px) (pay : List Character)
  /-- OP 0x08 to 0x0F (R83, R204) -/
  | unsupRen8F (sel : BitVec 3) (mw h : Px) (pay : List Character)
  /-- OP 0x12 to 0x13 (R83, R204) -/
  | unsupEnc23 (sel : BitVec 1) (mw h : Px) (pay : List Character)
  /-- OP 0x14 to 0x17 (R83, R204) -/
  | unsupEnc47 (sel : BitVec 2) (mw h : Px) (pay : List Character)
  /-- OP 0x18 to 0x1F (R83, R204) -/
  | unsupEnc8F (sel : BitVec 3) (mw h : Px) (pay : List Character)
  /-- OP 0x22 to 0x23 (R83, R204) -/
  | unsupChk23 (sel : BitVec 1) (mw h : Px) (pay : List Character)
  /-- OP 0x24 to 0x27 (R83, R204) -/
  | unsupChk47 (sel : BitVec 2) (mw h : Px) (pay : List Character)
  /-- OP 0x28 to 0x2F (R83, R204) -/
  | unsupChk8F (sel : BitVec 3) (mw h : Px) (pay : List Character)
  /-- OP 0x31 (R84, R204) -/
  | unsupCompose1 (mw h : Px) (pay : List Character)
  /-- OP 0x32 to 0x33 (R84, R204) -/
  | unsupCompose23 (sel : BitVec 1) (mw h : Px) (pay : List Character)
  /-- OP 0x34 to 0x37 (R84, R204) -/
  | unsupCompose47 (sel : BitVec 2) (mw h : Px) (pay : List Character)
  /-- OP 0x38 to 0x3F (R84, R204) -/
  | unsupCompose8F (sel : BitVec 3) (mw h : Px) (pay : List Character)
  /-- OP 0x40 to 0x7F (R84, R204) -/
  | unsupFn47 (sel : BitVec 6) (mw h : Px) (pay : List Character)
  /-- OP 0x80 to 0xBF (R84, R204) -/
  | unsupFn8B (sel : BitVec 6) (mw h : Px) (pay : List Character)
  /-- OP 0xC0 to 0xFF (R84, R204) -/
  | unsupFnCF (sel : BitVec 6) (mw h : Px) (pay : List Character)
  deriving DecidableEq, Repr

/-- The header field MW of an instruction (R71). -/
def Instr.mw : Instr → Px
  | .renEan13 mw _ _ | .renC128 mw _ _ | .encEan13 mw _ _ | .encC128 mw _ _ | .chkEan13 mw _ _ | .chkC128 mw _ _
  | .compose mw _ _ | .unsupCompose1 mw _ _ => mw
  | .unsupRen23 _ mw _ _ | .unsupRen47 _ mw _ _ | .unsupRen8F _ mw _ _ => mw
  | .unsupEnc23 _ mw _ _ | .unsupEnc47 _ mw _ _ | .unsupEnc8F _ mw _ _ => mw
  | .unsupChk23 _ mw _ _ | .unsupChk47 _ mw _ _ | .unsupChk8F _ mw _ _ => mw
  | .unsupCompose23 _ mw _ _ | .unsupCompose47 _ mw _ _ | .unsupCompose8F _ mw _ _ => mw
  | .unsupFn47 _ mw _ _ | .unsupFn8B _ mw _ _ | .unsupFnCF _ mw _ _ => mw

/-- The header field H of an instruction (R71). -/
def Instr.h : Instr → Px
  | .renEan13 _ h _ | .renC128 _ h _ | .encEan13 _ h _ | .encC128 _ h _ | .chkEan13 _ h _ | .chkC128 _ h _
  | .compose _ h _ | .unsupCompose1 _ h _ => h
  | .unsupRen23 _ _ h _ | .unsupRen47 _ _ h _ | .unsupRen8F _ _ h _ => h
  | .unsupEnc23 _ _ h _ | .unsupEnc47 _ _ h _ | .unsupEnc8F _ _ h _ => h
  | .unsupChk23 _ _ h _ | .unsupChk47 _ _ h _ | .unsupChk8F _ _ h _ => h
  | .unsupCompose23 _ _ h _ | .unsupCompose47 _ _ h _ | .unsupCompose8F _ _ h _ => h
  | .unsupFn47 _ _ h _ | .unsupFn8B _ _ h _ | .unsupFnCF _ _ h _ => h

/-- The payload of an instruction: bits for COMPOSE, characters for every other one (R72, R86). -/
def Instr.payload : Instr → Payload
  | .compose _ _ bs => .bits bs
  | .renEan13 _ _ p | .renC128 _ _ p | .encEan13 _ _ p | .encC128 _ _ p | .chkEan13 _ _ p | .chkC128 _ _ p
  | .unsupCompose1 _ _ p => .chars p
  | .unsupRen23 _ _ _ p | .unsupRen47 _ _ _ p | .unsupRen8F _ _ _ p => .chars p
  | .unsupEnc23 _ _ _ p | .unsupEnc47 _ _ _ p | .unsupEnc8F _ _ _ p => .chars p
  | .unsupChk23 _ _ _ p | .unsupChk47 _ _ _ p | .unsupChk8F _ _ _ p => .chars p
  | .unsupCompose23 _ _ _ p | .unsupCompose47 _ _ _ p | .unsupCompose8F _ _ _ p => .chars p
  | .unsupFn47 _ _ _ p | .unsupFn8B _ _ _ p | .unsupFnCF _ _ _ p => .chars p

end Sys2Proof
end

