-- ==== Sys2Proof/WellFormed.lean ====
section
/-! DEFINITION. When an instruction is well formed, that is encodable as a request (spec/30_encoding.md R71,
R73), and when its dimensions are within LCW's type (R74). -/

namespace Sys2Proof

/-- Well formed: the element count fits the header field LEN, `0 <= LEN <= NMAX` (R73). Every other field has
its own width in its type and no illegal value (R71, R72). -/
abbrev Instr.WellFormed (i : Instr) : Prop :=
  i.payload.length ≤ Config.nmax

/-- The operations that use MW and H: REN and COMPOSE (R74). -/
def Instr.usesDimensions : Instr → Bool
  | .renEan13 .. | .renC128 .. | .compose .. => true
  | .encEan13 .. | .encC128 .. | .chkEan13 .. | .chkC128 .. => false
  | .unsupRen23 .. | .unsupRen47 .. | .unsupRen8F .. => false
  | .unsupEnc23 .. | .unsupEnc47 .. | .unsupEnc8F .. => false
  | .unsupChk23 .. | .unsupChk47 .. | .unsupChk8F .. => false
  | .unsupCompose1 .. | .unsupCompose23 .. | .unsupCompose47 .. | .unsupCompose8F .. => false
  | .unsupFn47 .. | .unsupFn8B .. | .unsupFnCF .. => false

/-- Within the contract of R74: an operation that uses MW and H has `MW >= 1` and `H >= 1`. -/
abbrev Instr.DimensionsOk (i : Instr) : Prop :=
  i.usesDimensions = true → 1 ≤ i.mw.toNat ∧ 1 ≤ i.h.toNat

end Sys2Proof
end

