-- ==== Sys2Proof/Decode.lean ====
section
/-! DEFINITION. The header word, the decoder and the encoder (spec/30_encoding.md R71, R73, R80 to R86), and the
numbering of a request's bits that the host's opcode table uses (log 14). -/

namespace Sys2Proof

/-- Why a request cannot be read. Both are requests the host must not build (R73, R86). -/
inductive DecodeError where
  /-- LEN is not the number of payload elements (R73, U2). -/
  | lengthMismatch
  /-- The payload elements are not of the width that OP gives them (R86; log 8). -/
  | payloadWidth
  deriving DecidableEq, Repr

/-! ### The header word (R71, R80) -/

/-- OP = HDR[7:0]. -/
def Header.op (hdr : BitVec 64) : BitVec 8 := hdr.extractLsb' 0 8

/-- MW = HDR[23:8]. -/
def Header.mw (hdr : BitVec 64) : Px := hdr.extractLsb' 8 16

/-- H = HDR[39:24]. -/
def Header.h (hdr : BitVec 64) : Px := hdr.extractLsb' 24 16

/-- LEN = HDR[63:40]. -/
def Header.len (hdr : BitVec 64) : BitVec 24 := hdr.extractLsb' 40 24

/-- FN = OP[7:4]. -/
def Op.fn (op : BitVec 8) : BitVec 4 := op.extractLsb' 4 4

/-- FMT = OP[3:0]. -/
def Op.fmt (op : BitVec 8) : BitVec 4 := op.extractLsb' 0 4

/-- `HDR = OP + MW*2^8 + H*2^24 + LEN*2^40` (R71): the four fields side by side, LEN highest. -/
def Header.pack (op : BitVec 8) (mw h : Px) (len : BitVec 24) : BitVec 64 :=
  len ++ h ++ mw ++ op

/-! ### Decoding (R80, R82 to R84) -/

/-- FN = 0, render: FMT 0 and 1 name the formats, the others are unsupported (R82, R83). -/
def decodeRen (fmt : BitVec 4) (mw h : Px) (cs : List Character) : Instr :=
  if fmt = 0 then .renEan13 mw h cs
  else if fmt = 1 then .renC128 mw h cs
  else if fmt < 4 then .unsupRen23 (fmt.extractLsb' 0 1) mw h cs
  else if fmt < 8 then .unsupRen47 (fmt.extractLsb' 0 2) mw h cs
  else .unsupRen8F (fmt.extractLsb' 0 3) mw h cs

/-- FN = 1, encode (R82, R83). -/
def decodeEnc (fmt : BitVec 4) (mw h : Px) (cs : List Character) : Instr :=
  if fmt = 0 then .encEan13 mw h cs
  else if fmt = 1 then .encC128 mw h cs
  else if fmt < 4 then .unsupEnc23 (fmt.extractLsb' 0 1) mw h cs
  else if fmt < 8 then .unsupEnc47 (fmt.extractLsb' 0 2) mw h cs
  else .unsupEnc8F (fmt.extractLsb' 0 3) mw h cs

/-- FN = 2, check (R82, R83). -/
def decodeChk (fmt : BitVec 4) (mw h : Px) (cs : List Character) : Instr :=
  if fmt = 0 then .chkEan13 mw h cs
  else if fmt = 1 then .chkC128 mw h cs
  else if fmt < 4 then .unsupChk23 (fmt.extractLsb' 0 1) mw h cs
  else if fmt < 8 then .unsupChk47 (fmt.extractLsb' 0 2) mw h cs
  else .unsupChk8F (fmt.extractLsb' 0 3) mw h cs

/-- FN = 3 with FMT not 0: reserved (R84). `decodeOp` takes FMT = 0, COMPOSE itself, before it comes here. -/
def decodeReservedCompose (fmt : BitVec 4) (mw h : Px) (cs : List Character) : Instr :=
  if fmt < 2 then .unsupCompose1 mw h cs
  else if fmt < 4 then .unsupCompose23 (fmt.extractLsb' 0 1) mw h cs
  else if fmt < 8 then .unsupCompose47 (fmt.extractLsb' 0 2) mw h cs
  else .unsupCompose8F (fmt.extractLsb' 0 3) mw h cs

/-- Every operation whose payload is characters: all of them but COMPOSE (R86). FN 4 to 15 is reserved (R84). -/
def decodeChars (op : BitVec 8) (mw h : Px) (cs : List Character) : Instr :=
  let fn := Op.fn op
  let fmt := Op.fmt op
  if fn = 0 then decodeRen fmt mw h cs
  else if fn = 1 then decodeEnc fmt mw h cs
  else if fn = 2 then decodeChk fmt mw h cs
  else if fn = 3 then decodeReservedCompose fmt mw h cs
  else if fn < 8 then .unsupFn47 (op.extractLsb' 0 6) mw h cs
  else if fn < 12 then .unsupFn8B (op.extractLsb' 0 6) mw h cs
  else .unsupFnCF (op.extractLsb' 0 6) mw h cs

/-- The instruction OP selects (R82 to R84). The width of a payload element depends only on OP: 1 bit for OP
0x30, CHARW bits otherwise (R86). -/
def decodeOp (op : BitVec 8) (mw h : Px) (pay : Payload) : Except DecodeError Instr :=
  if op = 0x30 then
    match pay with
    | .bits bs  => .ok (.compose mw h bs)
    | .chars _  => .error .payloadWidth
  else
    match pay with
    | .chars cs => .ok (decodeChars op mw h cs)
    | .bits _   => .error .payloadWidth

/-- The decoder, total on every request: LEN must be the exact number of payload elements (R73). -/
def decode (r : Request) : Except DecodeError Instr :=
  if r.pay.length = (Header.len r.hdr).toNat then
    decodeOp (Header.op r.hdr) (Header.mw r.hdr) (Header.h r.hdr) r.pay
  else .error .lengthMismatch

/-! ### Encoding (R71, R82 to R84) -/

/-- The operation code of an instruction: the row's fixed bits, then the free ones. -/
def Instr.op : Instr → BitVec 8
  | .renEan13 .. => 0x00
  | .renC128 ..  => 0x01
  | .encEan13 .. => 0x10
  | .encC128 ..  => 0x11
  | .chkEan13 .. => 0x20
  | .chkC128 ..  => 0x21
  | .compose ..  => 0x30
  | .unsupRen23 sel ..     => 0b0000001#7 ++ sel
  | .unsupRen47 sel ..     => 0b000001#6 ++ sel
  | .unsupRen8F sel ..     => 0b00001#5 ++ sel
  | .unsupEnc23 sel ..     => 0b0001001#7 ++ sel
  | .unsupEnc47 sel ..     => 0b000101#6 ++ sel
  | .unsupEnc8F sel ..     => 0b00011#5 ++ sel
  | .unsupChk23 sel ..     => 0b0010001#7 ++ sel
  | .unsupChk47 sel ..     => 0b001001#6 ++ sel
  | .unsupChk8F sel ..     => 0b00101#5 ++ sel
  | .unsupCompose1 ..      => 0x31
  | .unsupCompose23 sel .. => 0b0011001#7 ++ sel
  | .unsupCompose47 sel .. => 0b001101#6 ++ sel
  | .unsupCompose8F sel .. => 0b00111#5 ++ sel
  | .unsupFn47 sel ..      => 0b01#2 ++ sel
  | .unsupFn8B sel ..      => 0b10#2 ++ sel
  | .unsupFnCF sel ..      => 0b11#2 ++ sel

/-- The request that stands for an instruction: its header word and its payload (R70, R71). -/
def encode (i : Instr) : Request where
  hdr := Header.pack i.op i.mw i.h (BitVec.ofNat 24 i.payload.length)
  pay := i.payload

/-! ### The opcode table (spec/opcode_table.json) -/

/-- One row: OP belongs to it when `OP && mask = pattern` (HDR[7:0]; the other header bits are never masked). -/
structure OpcodeRow where
  mnemonic : String
  pattern  : BitVec 8
  mask     : BitVec 8
  deriving DecidableEq, Repr

/-- The rows of the opcode table, in its order. -/
def opcodeTable : List OpcodeRow :=
  [⟨"REN.EAN13", 0x00, 0xFF⟩,
   ⟨"REN.C128", 0x01, 0xFF⟩,
   ⟨"ENC.EAN13", 0x10, 0xFF⟩,
   ⟨"ENC.C128", 0x11, 0xFF⟩,
   ⟨"CHK.EAN13", 0x20, 0xFF⟩,
   ⟨"CHK.C128", 0x21, 0xFF⟩,
   ⟨"COMPOSE", 0x30, 0xFF⟩] ++
  [⟨"UNSUP.REN.2_3", 0x02, 0xFE⟩,
   ⟨"UNSUP.REN.4_7", 0x04, 0xFC⟩,
   ⟨"UNSUP.REN.8_F", 0x08, 0xF8⟩,
   ⟨"UNSUP.ENC.2_3", 0x12, 0xFE⟩,
   ⟨"UNSUP.ENC.4_7", 0x14, 0xFC⟩,
   ⟨"UNSUP.ENC.8_F", 0x18, 0xF8⟩,
   ⟨"UNSUP.CHK.2_3", 0x22, 0xFE⟩,
   ⟨"UNSUP.CHK.4_7", 0x24, 0xFC⟩,
   ⟨"UNSUP.CHK.8_F", 0x28, 0xF8⟩] ++
  [⟨"UNSUP.COMPOSE.1", 0x31, 0xFF⟩,
   ⟨"UNSUP.COMPOSE.2_3", 0x32, 0xFE⟩,
   ⟨"UNSUP.COMPOSE.4_7", 0x34, 0xFC⟩,
   ⟨"UNSUP.COMPOSE.8_F", 0x38, 0xF8⟩,
   ⟨"UNSUP.FN.4_7", 0x40, 0xC0⟩,
   ⟨"UNSUP.FN.8_B", 0x80, 0xC0⟩,
   ⟨"UNSUP.FN.C_F", 0xC0, 0xC0⟩]

/-- The mnemonic of an instruction's row. -/
def Instr.mnemonic : Instr → String
  | .renEan13 .. => "REN.EAN13"
  | .renC128 .. => "REN.C128"
  | .encEan13 .. => "ENC.EAN13"
  | .encC128 .. => "ENC.C128"
  | .chkEan13 .. => "CHK.EAN13"
  | .chkC128 .. => "CHK.C128"
  | .compose .. => "COMPOSE"
  | .unsupRen23 .. => "UNSUP.REN.2_3"
  | .unsupRen47 .. => "UNSUP.REN.4_7"
  | .unsupRen8F .. => "UNSUP.REN.8_F"
  | .unsupEnc23 .. => "UNSUP.ENC.2_3"
  | .unsupEnc47 .. => "UNSUP.ENC.4_7"
  | .unsupEnc8F .. => "UNSUP.ENC.8_F"
  | .unsupChk23 .. => "UNSUP.CHK.2_3"
  | .unsupChk47 .. => "UNSUP.CHK.4_7"
  | .unsupChk8F .. => "UNSUP.CHK.8_F"
  | .unsupCompose1 .. => "UNSUP.COMPOSE.1"
  | .unsupCompose23 .. => "UNSUP.COMPOSE.2_3"
  | .unsupCompose47 .. => "UNSUP.COMPOSE.4_7"
  | .unsupCompose8F .. => "UNSUP.COMPOSE.8_F"
  | .unsupFn47 .. => "UNSUP.FN.4_7"
  | .unsupFn8B .. => "UNSUP.FN.8_B"
  | .unsupFnCF .. => "UNSUP.FN.C_F"

/-! ### A request as numbered bits (log 14)

Bit 0 is HDR bit 0; the payload elements follow the header's 64 bits, element 0 first, each at the width that OP
gives it (R86), its own bit 0 first. -/

/-- Elements of CHARW bits read from bit 64 upward. -/
def charsOfBits (w len : Nat) : List Character :=
  (List.range len).map fun k => BitVec.ofNat 16 (w >>> (64 + 16 * k))

/-- Elements of one bit read from bit 64 upward. -/
def bitsOfBits (w len : Nat) : List Bit :=
  (List.range len).map fun k => w.testBit (64 + k)

/-- The request whose numbered bits are those of `w`. -/
def requestOfBits (w : Nat) : Request :=
  let hdr := BitVec.ofNat 64 w
  { hdr := hdr
    pay := if Header.op hdr = 0x30 then .bits (bitsOfBits w (Header.len hdr).toNat)
           else .chars (charsOfBits w (Header.len hdr).toNat) }

/-- Characters as one number, element 0 in the lowest 16 bits. -/
def bitsOfChars : List Character → Nat
  | []      => 0
  | c :: cs => c.toNat + 2 ^ 16 * bitsOfChars cs

/-- Pattern bits as one number, element 0 in the lowest bit. -/
def bitsOfPattern : List Bit → Nat
  | []      => 0
  | b :: bs => b.toNat + 2 * bitsOfPattern bs

/-- The numbered bits of a request: the other direction of `requestOfBits`. -/
def bitsOfRequest (r : Request) : Nat :=
  r.hdr.toNat + 2 ^ 64 * (match r.pay with
    | .chars cs => bitsOfChars cs
    | .bits bs  => bitsOfPattern bs)

/-- The instruction the decoder reads from an instruction whose bits are `w`, the bits from `nbits` upward
being 0. -/
def decodeTableWord (nbits w : Nat) : Option Instr :=
  match decode (requestOfBits (w % 2 ^ nbits)) with
  | .ok i    => some i
  | .error _ => none

end Sys2Proof
end

