-- ==== Sys2Proof/Machine/State.lean ====
section
/-! DEFINITION. The state of the engine and its interface as plain data (spec/10_state.md R20 to R38,
spec/30_encoding.md R70 to R79), the reasons a step can stop, and the state after reset. -/

namespace Sys2Proof.Machine

/-- The two error results (R210). They are ordinary responses, not stops. -/
inductive ErrorResult where
  /-- EAN-13 input yields fewer than 12 digits after stripping (R211). -/
  | invalidInput
  /-- OP is not one of the seven defined operation codes (R212). -/
  | unsupportedFormat
  deriving DecidableEq, Repr

/-- Reasons for a fault. The spec gives the engine none (R213); these stand where the model's types allow what
the rules never do (R27, R51), and no step raises one (log 15). -/
inductive Fault where
  /-- `RomRead(T, i)` with `i` outside the table's range; raised by `romRead`. Safe: "no rule defines a read
  outside a table's range" (R51). -/
  | romIndex
  /-- Read of an element of the register D that the operation has not written; raised by `truncate`. Safe: "a
  model that makes it possible should treat the read as a fault" (R27). -/
  | unwrittenRead
  deriving DecidableEq, Repr

/-- Reasons for a refusal. -/
inductive Refusal where
  /-- An instruction without a meaning, refused by `exec` under its mnemonic; no arm does so. Safe. -/
  | notModelled (mnemonic : String)
  /-- REN or COMPOSE with MW = 0 or H = 0: "a model gives it no meaning (refuse)" (R74, U1); raised by
  `requireDimensions`. Safe (log 6). -/
  | zeroDimension
  /-- LEN is not the number of payload elements: "a model gives it no meaning (refuse)" (R73, U2); raised by
  `step`. Safe (log 7). -/
  | lengthMismatch
  /-- Payload elements of the wrong width for OP (R86); raised by `step`. Safe (log 8). -/
  | payloadWidth
  deriving DecidableEq, Repr

/-- A response record: two header words, then TEXT, BITS and TILES (R75, R76). -/
structure Response where
  rsp0  : BitVec 64
  rsp1  : BitVec 64
  text  : List Character
  bits  : List Bit
  tiles : List TileWord
  deriving DecidableEq, Repr

/-- The response while an operation fills it: CHECKSUM and the three sequences that `emit` appends to (R11,
R52). It lives inside one operation. -/
structure Draft where
  checksum : BitVec 7
  text     : List Character
  bits     : List Bit
  tiles    : List TileWord
  deriving DecidableEq, Repr

/-- What one operation works on: the transaction-local registers and the response it fills. -/
structure Work where
  regs : Registers
  out  : Draft
  deriving DecidableEq, Repr

/-- The state between two steps. -/
structure State where
  /-- The transaction-local registers (R27 to R31). Between operations they have no value (R27; log 4). -/
  regs      : Registers
  /-- The request channel: the request presented and not yet answered; `none` is the idle engine (R240, R246). -/
  req       : Option Request
  /-- The response channel: the response the last operation delivered; `none` is no response pending (R240). -/
  rsp       : Option Response
  /-- The host asserts reset for the transaction in progress, or for the idle engine (R240, R241; log 5). -/
  resetIn   : Bool
  /-- The model's own field: which free value the registers take next (log 4). -/
  freeIndex : Nat
  deriving DecidableEq, Repr

/-- The named reset value of the transaction-local registers, which the spec leaves unspecified (R27, R38):
zeros and empty sequences, a DESIGN CHOICE (log 3). -/
def Registers.reset : Registers where
  d      := []
  ndig   := 0
  dig    := #v[0, 0, 0, 0, 0, 0, 0, 0, 0, 0, 0, 0, 0]
  sumo   := 0
  sume   := 0
  tot    := 0
  chk10  := 0
  par    := #v[false, false, false, false, false, false]
  n      := 0
  sym    := []
  pos    := 0
  acc    := 0
  chk103 := 0
  pol    := false
  padded := []
  ng     := 0
  grp    := []

/-- The machine right after reset: idle, "no request is in progress, no response is pending" (R240, R38). -/
def State.reset : State where
  regs      := Registers.reset
  req       := none
  rsp       := none
  resetIn   := false
  freeIndex := 0

end Sys2Proof.Machine
end

