-- ==== Sys2Proof/Machine/Tables.lean ====
section
/-! DEFINITION. The six constant tables (spec/10_state.md R21 to R26). Their contents are the spec's printed
values, which it supplies from general knowledge (G1 to G5; log 9). A code is written leftmost module first, so
its first module is the word's most significant bit (R55). -/

namespace Sys2Proof.Machine

/-- The bits of a word as a sequence, most significant bit first (R55, R183). -/
def msbFirst {n : Nat} (v : BitVec n) : List Bit :=
  (List.range n).map v.getMsbD

/-- PARITY_ROM, indexed by the leading digit (R22, R120): 0 selects the L-code, 1 the G-code. -/
def parityRom : List (BitVec 6) :=
  [0b000000#6, 0b001011#6, 0b001101#6, 0b001110#6, 0b010011#6,
   0b011001#6, 0b011100#6, 0b010101#6, 0b010110#6, 0b011010#6]

/-- L_ROM, indexed by a digit value (R23, R121). -/
def lRom : List (BitVec 7) :=
  [0b0001101#7, 0b0011001#7, 0b0010011#7, 0b0111101#7, 0b0100011#7,
   0b0110001#7, 0b0101111#7, 0b0111011#7, 0b0110111#7, 0b0001011#7]

/-- G_ROM, indexed by a digit value (R23, R122). -/
def gRom : List (BitVec 7) :=
  [0b0100111#7, 0b0110011#7, 0b0011011#7, 0b0100001#7, 0b0011101#7,
   0b0111001#7, 0b0000101#7, 0b0010001#7, 0b0001001#7, 0b0010111#7]

/-- R_ROM, indexed by a digit value (R23, R123). -/
def rRom : List (BitVec 7) :=
  [0b1110010#7, 0b1100110#7, 0b1101100#7, 0b1000010#7, 0b1011100#7,
   0b1001110#7, 0b1010000#7, 0b1000100#7, 0b1001000#7, 0b1110100#7]

/-- PATTERN_ROM, entries 0 to 26 (R161). -/
def patternRom0 : List (List Nat) :=
  [[2, 1, 2, 2, 2, 2], [2, 2, 2, 1, 2, 2], [2, 2, 2, 2, 2, 1], [1, 2, 1, 2, 2, 3], [1, 2, 1, 3, 2, 2],
   [1, 3, 1, 2, 2, 2], [1, 2, 2, 2, 1, 3], [1, 2, 2, 3, 1, 2], [1, 3, 2, 2, 1, 2], [2, 2, 1, 2, 1, 3],
   [2, 2, 1, 3, 1, 2], [2, 3, 1, 2, 1, 2], [1, 1, 2, 2, 3, 2], [1, 2, 2, 1, 3, 2], [1, 2, 2, 2, 3, 1],
   [1, 1, 3, 2, 2, 2], [1, 2, 3, 1, 2, 2], [1, 2, 3, 2, 2, 1], [2, 2, 3, 2, 1, 1], [2, 2, 1, 1, 3, 2],
   [2, 2, 1, 2, 3, 1], [2, 1, 3, 2, 1, 2], [2, 2, 3, 1, 1, 2], [3, 1, 2, 1, 3, 1], [3, 1, 1, 2, 2, 2],
   [3, 2, 1, 1, 2, 2], [3, 2, 1, 2, 2, 1]]

/-- PATTERN_ROM, entries 27 to 53 (R161). -/
def patternRom27 : List (List Nat) :=
  [[3, 1, 2, 2, 1, 2], [3, 2, 2, 1, 1, 2], [3, 2, 2, 2, 1, 1], [2, 1, 2, 1, 2, 3], [2, 1, 2, 3, 2, 1],
   [2, 3, 2, 1, 2, 1], [1, 1, 1, 3, 2, 3], [1, 3, 1, 1, 2, 3], [1, 3, 1, 3, 2, 1], [1, 1, 2, 3, 1, 3],
   [1, 3, 2, 1, 1, 3], [1, 3, 2, 3, 1, 1], [2, 1, 1, 3, 1, 3], [2, 3, 1, 1, 1, 3], [2, 3, 1, 3, 1, 1],
   [1, 1, 2, 1, 3, 3], [1, 1, 2, 3, 3, 1], [1, 3, 2, 1, 3, 1], [1, 1, 3, 1, 2, 3], [1, 1, 3, 3, 2, 1],
   [1, 3, 3, 1, 2, 1], [3, 1, 3, 1, 2, 1], [2, 1, 1, 3, 3, 1], [2, 3, 1, 1, 3, 1], [2, 1, 3, 1, 1, 3],
   [2, 1, 3, 3, 1, 1], [2, 1, 3, 1, 3, 1]]

/-- PATTERN_ROM, entries 54 to 80 (R161). -/
def patternRom54 : List (List Nat) :=
  [[3, 1, 1, 1, 2, 3], [3, 1, 1, 3, 2, 1], [3, 3, 1, 1, 2, 1], [3, 1, 2, 1, 1, 3], [3, 1, 2, 3, 1, 1],
   [3, 3, 2, 1, 1, 1], [3, 1, 4, 1, 1, 1], [2, 2, 1, 4, 1, 1], [4, 3, 1, 1, 1, 1], [1, 1, 1, 2, 2, 4],
   [1, 1, 1, 4, 2, 2], [1, 2, 1, 1, 2, 4], [1, 2, 1, 4, 2, 1], [1, 4, 1, 1, 2, 2], [1, 4, 1, 2, 2, 1],
   [1, 1, 2, 2, 1, 4], [1, 1, 2, 4, 1, 2], [1, 2, 2, 1, 1, 4], [1, 2, 2, 4, 1, 1], [1, 4, 2, 1, 1, 2],
   [1, 4, 2, 2, 1, 1], [2, 4, 1, 2, 1, 1], [2, 2, 1, 1, 1, 4], [4, 1, 3, 1, 1, 1], [2, 4, 1, 1, 1, 2],
   [1, 3, 4, 1, 1, 1], [1, 1, 1, 2, 4, 2]]

/-- PATTERN_ROM, entries 81 to 106 (R161). -/
def patternRom81 : List (List Nat) :=
  [[1, 2, 1, 1, 4, 2], [1, 2, 1, 2, 4, 1], [1, 1, 4, 2, 1, 2], [1, 2, 4, 1, 1, 2], [1, 2, 4, 2, 1, 1],
   [4, 1, 1, 2, 1, 2], [4, 2, 1, 1, 1, 2], [4, 2, 1, 2, 1, 1], [2, 1, 2, 1, 4, 1], [2, 1, 4, 1, 2, 1],
   [4, 1, 2, 1, 2, 1], [1, 1, 1, 1, 4, 3], [1, 1, 1, 3, 4, 1], [1, 3, 1, 1, 4, 1], [1, 1, 4, 1, 1, 3],
   [1, 1, 4, 3, 1, 1], [4, 1, 1, 1, 1, 3], [4, 1, 1, 3, 1, 1], [1, 1, 3, 1, 4, 1], [1, 1, 4, 1, 3, 1],
   [3, 1, 1, 1, 4, 1], [4, 1, 1, 1, 3, 1], [2, 1, 1, 4, 1, 2], [2, 1, 1, 2, 1, 4], [2, 1, 1, 2, 3, 2],
   [2, 3, 3, 1, 1, 1, 2]]

/-- PATTERN_ROM, indexed by a symbol value, 0 to 106 (R24, R161): 104 is Start-Code-B, 106 is Stop. -/
def patternRom : List (List Nat) :=
  patternRom0 ++ patternRom27 ++ patternRom54 ++ patternRom81

/-- The value of Start-Code-B (R24). -/
def startCodeB : Nat := 104

/-- The value of Stop (R24). -/
def stopCode : Nat := 106

/-- The abstract content of a palette fragment: module `j` is a bar if bit `4 - j` of `g` is 1 (R183). -/
def modules (g : Group) : List Bit := msbFirst g

/-- TILE_ROM: one fragment for every integer 0 to 31, each represented by its modules (R25, R183; log 12). -/
def tileRom : List (List Bit) :=
  (List.range 32).map fun g => modules (BitVec.ofNat 5 g)

end Sys2Proof.Machine
end

