-- ==== Sys2Proof/Machine/Ops.lean ====
section
/-! DEFINITION. The shared operations: table reads, appending to the response, packing and delivering it, and
`raise`, the engine's counterpart of taking an exception (spec/00_scope.md R11, spec/30_encoding.md R75 to R79,
spec/60_exceptions.md R210 to R221). There is no return from an error to model: "there is no return-from-trap
operation and nothing to restore" (R220). -/

namespace Sys2Proof.Machine

/-- What ends an operation before its response is complete: `raise` of an error result, or a model fault. -/
inductive Stop where
  | raise (e : ErrorResult)
  | fault (f : Fault)
  deriving DecidableEq, Repr

/-- `RomRead(T, i)`: entry `i` of table `T`, no side effect (R51). -/
def romRead {α : Type} (table : List α) (i : Nat) : Except Stop α :=
  match table[i]? with
  | some entry => .ok entry
  | none       => .error (.fault .romIndex)

/-! ### The response record (R75 to R79) -/

/-- STATUS codes: 0 = OK, 1 = InvalidInput, 2 = UnsupportedFormat; 3 is never produced (R76). -/
def statusOk : BitVec 2 := 0

/-- The STATUS code of an error result (R211, R212). -/
def ErrorResult.status : ErrorResult → BitVec 2
  | .invalidInput      => 1
  | .unsupportedFormat => 2

/-- STATUS = RSP0[1:0]. -/
def Response.status (r : Response) : BitVec 2 := r.rsp0.extractLsb' 0 2

/-- CHECKSUM = RSP0[8:2]. -/
def Response.checksum (r : Response) : BitVec 7 := r.rsp0.extractLsb' 2 7

/-- TLEN = RSP0[55:32]. -/
def Response.tlen (r : Response) : BitVec 24 := r.rsp0.extractLsb' 32 24

/-- BLEN = RSP1[31:0]. -/
def Response.blen (r : Response) : BitVec 32 := r.rsp1.extractLsb' 0 32

/-- NT = RSP1[63:32]. -/
def Response.nt (r : Response) : BitVec 32 := r.rsp1.extractLsb' 32 32

/-- The empty response: every response sequence starts empty (R52), a field not filled is 0 (R77). -/
def Draft.empty : Draft where
  checksum := 0
  text     := []
  bits     := []
  tiles    := []

/-- The response record of a STATUS and the filled fields: RSP0 = 8 zero bits, TLEN, 23 zero bits, CHECKSUM,
STATUS from the top; RSP1 = NT, BLEN (R76). -/
def Draft.respond (status : BitVec 2) (d : Draft) : Response where
  rsp0  := 0#8 ++ BitVec.ofNat 24 d.text.length ++ 0#23 ++ d.checksum ++ status
  rsp1  := BitVec.ofNat 32 d.tiles.length ++ BitVec.ofNat 32 d.bits.length
  text  := d.text
  bits  := d.bits
  tiles := d.tiles

/-- The response of an error: STATUS is its code, every other field is 0 or empty (R217). -/
def ErrorResult.response (e : ErrorResult) : Response :=
  Draft.empty.respond e.status

/-- `RSP.CHECKSUM <- v` (R11). -/
def Work.setChecksum (v : BitVec 7) (w : Work) : Work :=
  { w with out := { w.out with checksum := v } }

/-- `emit(TEXT, c)` for each character, in order (R11, R52). -/
def Work.emitText (cs : List Character) (w : Work) : Work :=
  { w with out := { w.out with text := w.out.text ++ cs } }

/-- `emit(BITS, b)` for each bit, in order (R11, R52). -/
def Work.emitBits (bs : List Bit) (w : Work) : Work :=
  { w with out := { w.out with bits := w.out.bits ++ bs } }

/-- `emit(TILES, t)` for each descriptor, in order (R11, R52). -/
def Work.emitTiles (ts : List TileWord) (w : Work) : Work :=
  { w with out := { w.out with tiles := w.out.tiles ++ ts } }

/-! ### Beginning and ending an operation -/

/-- An operation starts with the registers as they happen to be and an empty response (R27, R52). -/
def State.begin (s : State) : Work where
  regs := s.regs
  out  := Draft.empty

/-- The end of every transaction: the response is delivered, the request is done with and the engine is idle
again (R217, R219, R246). A response still on the channel is replaced, a DESIGN CHOICE (log 20). The
transaction-local registers have no value from here on: free values (R27, U11; log 4). -/
def State.deliver (r : Response) (s : State) : State :=
  { s with
    req       := none
    rsp       := some r
    regs      := Config.freeRegisters s.freeIndex
    freeIndex := s.freeIndex + 1 }

/-- `raise <Error>()`: the operation ends at once with the error's response; whatever it had appended is
discarded and nothing is saved (R217). The counterpart of taking an exception. -/
def State.raiseError (e : ErrorResult) (s : State) : State :=
  s.deliver e.response

/-- How an operation ends: with STATUS = OK and what it filled, with an error result, or with a model fault. -/
def State.finish (s : State) : Except Stop Work → Host.Outcome State Fault Refusal
  | .ok w              => .next (s.deliver (w.out.respond statusOk))
  | .error (.raise e)  => .next (s.raiseError e)
  | .error (.fault f)  => .fault f

end Sys2Proof.Machine
end

