-- ==== Sys2Proof/Machine/Operands.lean ====
section
/-! DEFINITION. Operand forms (spec/30_encoding.md R74, R78, R81; spec/40_ean13_checksum.md R101;
spec/42_code128b_mapper_checksum.md R142). MW, H and LEN are unsigned and unscaled; a character element is
compared as an unsigned integer; there is no immediate operand (R81). -/

namespace Sys2Proof.Machine

/-- The operations that use MW and H require `MW >= 1` and `H >= 1`; a request with a zero has no meaning and is
refused (R74, U1; log 6). `k` is the operation within the contract. -/
def requireDimensions (mw h : Px) (k : Host.Outcome State Fault Refusal) : Host.Outcome State Fault Refusal :=
  if mw = 0 ∨ h = 0 then .refused .zeroDimension else k

/-- A character is a digit if and only if `48 <= c <= 57` (R101; log 11). -/
def isDigit (c : Character) : Bool := 48 ≤ c.toNat ∧ c.toNat ≤ 57

/-- The digit value of a digit character, `c - 48` (R101). -/
def digitValue (c : Character) : Digit := BitVec.ofNat 4 (c.toNat - 48)

/-- `chr(d)`, the character of a digit value, `48 + d` (R10, R110). -/
def digitChar (d : Digit) : Character := BitVec.ofNat 16 (48 + d.toNat)

/-- The Code128 symbol value of a character: outside [32,127] it is replaced by 63, then 32 is subtracted
(R142). -/
def symbolValue (c : Character) : SymbolValue :=
  let c' := if c.toNat < 32 ∨ 127 < c.toNat then 63 else c.toNat
  BitVec.ofNat 7 (c' - 32)

/-- `WPX = 5 * MW`, taken at 19 bits (R81, R186; log 12). -/
def tileWidth (mw : Px) : BitVec 19 := BitVec.ofNat 19 (5 * mw.toNat)

/-- A tile descriptor: REF in [4:0], WPX in [23:5], HPX in [39:24] (R78). -/
def tileWord (g : Group) (wpx : BitVec 19) (hpx : Px) : TileWord := hpx ++ wpx ++ g

/-- REF = T[4:0]. -/
def Tile.ref (t : TileWord) : Group := t.extractLsb' 0 5

/-- WPX = T[23:5]. -/
def Tile.wpx (t : TileWord) : BitVec 19 := t.extractLsb' 5 19

/-- HPX = T[39:24]. -/
def Tile.hpx (t : TileWord) : Px := t.extractLsb' 24 16

end Sys2Proof.Machine
end

