-- ==== Sys2Proof/Machine/Flags.lean ====
section
/-! DEFINITION. The one flag, POL, the polarity of the widths-to-bits walk (spec/10_state.md R33,
spec/43_code128b_bitgen.md R163). There is no condition code (R33); STATUS is a response field (R34, Ops.lean). -/

namespace Sys2Proof.Machine

/-- The walk of `w2b` from a polarity and the bits so far: "emit `width` repetitions of the current polarity,
then flip polarity for the next element" (R163). Answers the final POL and the bits. -/
def w2bFrom : List Nat → Bit → List Bit → Bit × List Bit
  | [], pol, out          => (pol, out)
  | width :: ws, pol, out => w2bFrom ws (!pol) (out ++ rep pol width)

/-- `w2b(W)`: POL starts at 1, a bar, for every width list (R163). -/
def w2b (widths : List Nat) : Bit × List Bit := w2bFrom widths true []

/-- The bits of `w2b(W)` alone. -/
def w2bBits (widths : List Nat) : List Bit := (w2b widths).2

end Sys2Proof.Machine
end

