-- ==== Sys2Proof/Machine/Ean13.lean ====
section
/-! DEFINITION. The EAN-13 checksum calculator and bit-pattern generator (spec/40_ean13_checksum.md,
spec/41_ean13_bitgen.md), CHK.EAN13 and ENC.EAN13. -/

namespace Sys2Proof.Machine

/-- The subsequence of digit characters, each replaced by its digit value (R102). -/
def digitsOf : List Character → List Digit
  | []      => []
  | c :: cs => if isDigit c then digitValue c :: digitsOf cs else digitsOf cs

/-- Strip: D and NDIG (R102). -/
def strip (pay : List Character) (w : Work) : Work :=
  let d := digitsOf pay
  { w with regs := { w.regs with d := d, ndig := BitVec.ofNat 24 d.length } }

/-- Length check: fewer than 12 digits is InvalidInput (R103). -/
def checkLength (w : Work) : Except Stop Work :=
  if w.regs.ndig.toNat < 12 then .error (.raise .invalidInput) else .ok w

/-- Truncate: `DIG[i] <- D[i]` for i = 0 to 11; DIG[12] keeps its value (R104). -/
def truncate (w : Work) : Except Stop Work :=
  match w.regs.d with
  | d0 :: d1 :: d2 :: d3 :: d4 :: d5 :: d6 :: d7 :: d8 :: d9 :: d10 :: d11 :: _ =>
    .ok { w with regs := { w.regs with
      dig := #v[d0, d1, d2, d3, d4, d5, d6, d7, d8, d9, d10, d11, w.regs.dig[12]] } }
  | _ => .error (.fault .unwrittenRead)

/-- SUMO and SUME, the sums over the odd and the even 1-indexed positions (R105). -/
def sums (w : Work) : Work :=
  let d := w.regs.dig
  let sumo := d[0].toNat + d[2].toNat + d[4].toNat + d[6].toNat + d[8].toNat + d[10].toNat
  let sume := d[1].toNat + d[3].toNat + d[5].toNat + d[7].toNat + d[9].toNat + d[11].toNat
  { w with regs := { w.regs with sumo := BitVec.ofNat 6 sumo, sume := BitVec.ofNat 6 sume } }

/-- `TOT <- 3 * SUME + SUMO` (R106). -/
def total (w : Work) : Work :=
  { w with regs := { w.regs with tot := BitVec.ofNat 8 (3 * w.regs.sume.toNat + w.regs.sumo.toNat) } }

/-- CHK10 and DIG[12]: `TOT mod 10`, and 10 minus it if it is not 0 (R107). -/
def checkDigit (w : Work) : Work :=
  let c := w.regs.tot.toNat % 10
  let c := if c ≠ 0 then 10 - c else c
  { w with regs := { w.regs with chk10 := BitVec.ofNat 4 c, dig := w.regs.dig.set 12 (BitVec.ofNat 4 c) } }

/-- CHECKSUM, and TEXT as the 13 digit characters (R110). -/
def eanText (w : Work) : Work :=
  (w.setChecksum (BitVec.ofNat 7 w.regs.chk10.toNat)).emitText (w.regs.dig.toList.map digitChar)

/-- The checksum calculator: rules R102, R103, R104, R105, R106, R107, R110 in that order (R100, R111). -/
def eanChecksum (pay : List Character) (w : Work) : Except Stop Work := do
  let w ← checkLength (strip pay w)
  let w ← truncate w
  return eanText (checkDigit (total (sums w)))

/-- Parity selection: `PAR[j]` from the parity string of DIG[0] (R125). -/
def selectParity (w : Work) : Except Stop Work := do
  let p ← romRead parityRom w.regs.dig[0].toNat
  return { w with regs := { w.regs with par := Vector.ofFn fun j => p.getMsbD j } }

/-- The code table a parity bit selects: 0 the L-code, 1 the G-code (R125, R126). -/
def sideTable (par : Bit) : List (BitVec 7) := if par then gRom else lRom

/-- The 7-bit codes of digits, each read from its table, side by side (R126). -/
def readCodes : List (List (BitVec 7) × Digit) → Except Stop (List Bit)
  | [] => .ok []
  | (table, d) :: rest => do
    let code ← romRead table d.toNat
    let codes ← readCodes rest
    return msbFirst code ++ codes

/-- Bit assembly: start guard, d1 to d6 by parity, centre guard, d7 to d12 in R-codes, end guard (R126). No quiet
zone (R128). -/
def assembleEan (w : Work) : Except Stop (List Bit) := do
  let d := w.regs.dig
  let p := w.regs.par
  let left ← readCodes
    [(sideTable p[0], d[1]), (sideTable p[1], d[2]), (sideTable p[2], d[3]),
     (sideTable p[3], d[4]), (sideTable p[4], d[5]), (sideTable p[5], d[6])]
  let right ← readCodes
    [(rRom, d[7]), (rRom, d[8]), (rRom, d[9]), (rRom, d[10]), (rRom, d[11]), (rRom, d[12])]
  return [true, false, true] ++ left ++ [false, true, false, true, false] ++ right ++ [true, false, true]

/-- From the payload to the 95-bit pattern, not yet emitted: the steps ENC.EAN13 and REN.EAN13 share (R127,
R202). -/
def eanPattern (pay : List Character) (w : Work) : Except Stop (Work × List Bit) := do
  let w ← eanChecksum pay w
  let w ← selectParity w
  let b ← assembleEan w
  return (w, b)

/-- `CHK.EAN13` (R111). MW and H are ignored (R74). -/
def execChkEan13 (_mw _h : Px) (pay : List Character) (s : State) : Host.Outcome State Fault Refusal :=
  s.finish (eanChecksum pay s.begin)

/-- `ENC.EAN13` (R127). MW and H are ignored (R74). -/
def execEncEan13 (_mw _h : Px) (pay : List Character) (s : State) : Host.Outcome State Fault Refusal :=
  s.finish do
    let (w, b) ← eanPattern pay s.begin
    return w.emitBits b

end Sys2Proof.Machine
end

