-- ==== Sys2Proof/Machine/Code128.lean ====
section
/-! DEFINITION. The Code128-B character mapper, checksum unit and bit-pattern generator
(spec/42_code128b_mapper_checksum.md, spec/43_code128b_bitgen.md), CHK.C128 and ENC.C128. -/

namespace Sys2Proof.Machine

/-- `N <- REQ.LEN` (R141). -/
def countCharacters (pay : List Character) (w : Work) : Work :=
  { w with regs := { w.regs with n := BitVec.ofNat 24 pay.length } }

/-- `SYM[i]` for i = 0 to N-1 (R142). -/
def mapSymbols (pay : List Character) (w : Work) : Work :=
  { w with regs := { w.regs with sym := (pay.take w.regs.n.toNat).map symbolValue } }

/-- The loop of R144: for the symbol at 0-based index `k`, `POS` is `k + 1` and `ACC <- ACC + SYM[k] * POS`. -/
def weigh : Nat → List SymbolValue → Registers → Registers
  | _, [], r => r
  | k, v :: vs, r =>
    let pos := BitVec.ofNat 25 (k + 1)
    weigh (k + 1) vs { r with pos := pos, acc := BitVec.ofNat 64 (r.acc.toNat + v.toNat * pos.toNat) }

/-- `ACC <- 104`, then the loop over `POS = 1 .. N`; no iteration when N = 0 (R144). -/
def weightedSum (w : Work) : Work :=
  let r := { w.regs with acc := 104 }
  { w with regs := weigh 0 (r.sym.take r.n.toNat) r }

/-- `CHK103 <- ACC mod 103` and CHECKSUM (R145). -/
def checkSymbol (w : Work) : Work :=
  let v := BitVec.ofNat 7 (w.regs.acc.toNat % 103)
  Work.setChecksum v { w with regs := { w.regs with chk103 := v } }

/-- TEXT is the payload, element for element, unsubstituted (R149). -/
def c128Text (pay : List Character) (w : Work) : Work :=
  w.emitText (pay.take w.regs.n.toNat)

/-- The mapper and checksum unit: rules R141, R142, R144, R145, R149 in that order (R148). -/
def c128Checksum (pay : List Character) (w : Work) : Work :=
  c128Text pay (checkSymbol (weightedSum (mapSymbols pay (countCharacters pay w))))

/-- Symbols by value, each read from PATTERN_ROM and turned into bits, side by side; POL is left as the last
walk leaves it (R163, R167). -/
def drawSymbols : List Nat → Registers → Except Stop (Registers × List Bit)
  | [], r => .ok (r, [])
  | v :: vs, r => do
    let widths ← romRead patternRom v
    let (pol, bits) := w2b widths
    let (r, rest) ← drawSymbols vs { r with pol := pol }
    return (r, bits ++ rest)

/-- Bit assembly: quiet zone, Start-Code-B, the data symbols, the check symbol, Stop, quiet zone (R166, R167). -/
def assembleC128 (w : Work) : Except Stop (Work × List Bit) := do
  let data := (w.regs.sym.take w.regs.n.toNat).map (·.toNat)
  let (r, bits) ← drawSymbols ([startCodeB] ++ data ++ [w.regs.chk103.toNat] ++ [stopCode]) w.regs
  return ({ w with regs := r }, rep false 10 ++ bits ++ rep false 10)

/-- From the payload to the bit pattern, not yet emitted: the steps ENC.C128 and REN.C128 share (R168, R203). -/
def c128Pattern (pay : List Character) (w : Work) : Except Stop (Work × List Bit) :=
  assembleC128 (c128Checksum pay w)

/-- `CHK.C128` (R148). MW and H are ignored (R74). -/
def execChkC128 (_mw _h : Px) (pay : List Character) (s : State) : Host.Outcome State Fault Refusal :=
  s.finish (.ok (c128Checksum pay s.begin))

/-- `ENC.C128` (R168). MW and H are ignored (R74). -/
def execEncC128 (_mw _h : Px) (pay : List Character) (s : State) : Host.Outcome State Fault Refusal :=
  s.finish do
    let (w, b) ← c128Pattern pay s.begin
    return w.emitBits b

end Sys2Proof.Machine
end

