-- ==== Sys2Proof/Machine/Composer.lean ====
section
/-! DEFINITION. The bitmap tile composer (spec/44_composer.md), COMPOSE, and what a host's renderer makes of the
tiles in the spec's abstract terms (R183, R187, R190). -/

namespace Sys2Proof.Machine

/-- `P` padded on the right with 0 bits until its length is a multiple of 5 (R180). -/
def padRight (p : List Bit) : List Bit :=
  let r := p.length % 5
  if r = 0 then p else p ++ rep false (5 - r)

/-- PADDED (R180). -/
def pad (p : List Bit) (w : Work) : Work :=
  { w with regs := { w.regs with padded := padRight p } }

/-- Consecutive groups of 5 bits, each an unsigned integer with the first bit as most significant (R181). -/
def groupsOf : List Bit → List Group
  | b0 :: b1 :: b2 :: b3 :: b4 :: rest =>
    BitVec.ofNat 5 (16 * b0.toNat + 8 * b1.toNat + 4 * b2.toNat + 2 * b3.toNat + b4.toNat) :: groupsOf rest
  | _ => []

/-- NG and GRP[0..NG-1] (R181). -/
def group (w : Work) : Work :=
  let ng := BitVec.ofNat 32 (w.regs.padded.length / 5)
  { w with regs := { w.regs with ng := ng, grp := (groupsOf w.regs.padded).take ng.toNat } }

/-- One descriptor per group, in group order: REF the group, WPX = 5*MW, HPX = H (R185). -/
def emitDescriptors (mw h : Px) (w : Work) : Work :=
  w.emitTiles ((w.regs.grp.take w.regs.ng.toNat).map fun g => tileWord g (tileWidth mw) h)

/-- The composer on a pattern: rules R180, R181, R185 (R188). -/
def composePattern (p : List Bit) (mw h : Px) (w : Work) : Work :=
  emitDescriptors mw h (group (pad p w))

/-- `COMPOSE` (R188): needs MW >= 1 and H >= 1 (R74); CHECKSUM 0, TEXT and BITS empty. -/
def execCompose (mw h : Px) (pay : List Bit) (s : State) : Host.Outcome State Fault Refusal :=
  requireDimensions mw h (s.finish (.ok (composePattern pay mw h s.begin)))

/-! ### The host's renderer, abstractly -/

/-- The modules a host draws for tiles, each reference resolved in its copy of TILE_ROM, left to right with zero
gap (R184, R187). -/
def drawTiles : List TileWord → Except Stop (List Bit)
  | [] => .ok []
  | t :: ts => do
    let fragment ← romRead tileRom (Tile.ref t).toNat
    let rest ← drawTiles ts
    return fragment ++ rest

/-- The pixel columns of a strip, bar or space each: tile `k` is WPX columns wide, its five modules equally wide
(R190). -/
def pixelColumns : List TileWord → Except Stop (List Bit)
  | [] => .ok []
  | t :: ts => do
    let fragment ← romRead tileRom (Tile.ref t).toNat
    let rest ← pixelColumns ts
    return fragment.flatMap (fun m => rep m ((Tile.wpx t).toNat / 5)) ++ rest

end Sys2Proof.Machine
end

