-- ==== Sys2Proof/Machine/Render.lean ====
section
/-! DEFINITION. The render operations REN.EAN13 and REN.C128, and UNSUP (spec/45_render.md). -/

namespace Sys2Proof.Machine

/-- `REN.EAN13` (R202): the encoder's pattern goes to the composer and not to BITS (R201). -/
def execRenEan13 (mw h : Px) (pay : List Character) (s : State) : Host.Outcome State Fault Refusal :=
  requireDimensions mw h <| s.finish do
    let (w, p) ← eanPattern pay s.begin
    return composePattern p mw h w

/-- `REN.C128` (R203). -/
def execRenC128 (mw h : Px) (pay : List Character) (s : State) : Host.Outcome State Fault Refusal :=
  requireDimensions mw h <| s.finish do
    let (w, p) ← c128Pattern pay s.begin
    return composePattern p mw h w

/-- `UNSUP`: `raise UnsupportedFormat()`, whatever OP, MW, H and payload (R204). -/
def unsupported (s : State) : Host.Outcome State Fault Refusal :=
  s.finish (.error (.raise .unsupportedFormat))

/-- REN, FMT 2 to 3: UnsupportedFormat (R83, R204). -/
def execUnsupRen23 (_sel : BitVec 1) (_mw _h : Px) (_pay : List Character) (s : State) :
    Host.Outcome State Fault Refusal := unsupported s

/-- REN, FMT 4 to 7: UnsupportedFormat (R83, R204). -/
def execUnsupRen47 (_sel : BitVec 2) (_mw _h : Px) (_pay : List Character) (s : State) :
    Host.Outcome State Fault Refusal := unsupported s

/-- REN, FMT 8 to 15: UnsupportedFormat (R83, R204). -/
def execUnsupRen8F (_sel : BitVec 3) (_mw _h : Px) (_pay : List Character) (s : State) :
    Host.Outcome State Fault Refusal := unsupported s

/-- ENC, FMT 2 to 3: UnsupportedFormat (R83, R204). -/
def execUnsupEnc23 (_sel : BitVec 1) (_mw _h : Px) (_pay : List Character) (s : State) :
    Host.Outcome State Fault Refusal := unsupported s

/-- ENC, FMT 4 to 7: UnsupportedFormat (R83, R204). -/
def execUnsupEnc47 (_sel : BitVec 2) (_mw _h : Px) (_pay : List Character) (s : State) :
    Host.Outcome State Fault Refusal := unsupported s

/-- ENC, FMT 8 to 15: UnsupportedFormat (R83, R204). -/
def execUnsupEnc8F (_sel : BitVec 3) (_mw _h : Px) (_pay : List Character) (s : State) :
    Host.Outcome State Fault Refusal := unsupported s

/-- CHK, FMT 2 to 3: UnsupportedFormat (R83, R204). -/
def execUnsupChk23 (_sel : BitVec 1) (_mw _h : Px) (_pay : List Character) (s : State) :
    Host.Outcome State Fault Refusal := unsupported s

/-- CHK, FMT 4 to 7: UnsupportedFormat (R83, R204). -/
def execUnsupChk47 (_sel : BitVec 2) (_mw _h : Px) (_pay : List Character) (s : State) :
    Host.Outcome State Fault Refusal := unsupported s

/-- CHK, FMT 8 to 15: UnsupportedFormat (R83, R204). -/
def execUnsupChk8F (_sel : BitVec 3) (_mw _h : Px) (_pay : List Character) (s : State) :
    Host.Outcome State Fault Refusal := unsupported s

/-- COMPOSE, FMT 1: UnsupportedFormat (R84, R204). -/
def execUnsupCompose1 (_mw _h : Px) (_pay : List Character) (s : State) :
    Host.Outcome State Fault Refusal := unsupported s

/-- COMPOSE, FMT 2 to 3: UnsupportedFormat (R84, R204). -/
def execUnsupCompose23 (_sel : BitVec 1) (_mw _h : Px) (_pay : List Character) (s : State) :
    Host.Outcome State Fault Refusal := unsupported s

/-- COMPOSE, FMT 4 to 7: UnsupportedFormat (R84, R204). -/
def execUnsupCompose47 (_sel : BitVec 2) (_mw _h : Px) (_pay : List Character) (s : State) :
    Host.Outcome State Fault Refusal := unsupported s

/-- COMPOSE, FMT 8 to 15: UnsupportedFormat (R84, R204). -/
def execUnsupCompose8F (_sel : BitVec 3) (_mw _h : Px) (_pay : List Character) (s : State) :
    Host.Outcome State Fault Refusal := unsupported s

/-- FN 4 to 7: UnsupportedFormat (R84, R204). -/
def execUnsupFn47 (_sel : BitVec 6) (_mw _h : Px) (_pay : List Character) (s : State) :
    Host.Outcome State Fault Refusal := unsupported s

/-- FN 8 to 11: UnsupportedFormat (R84, R204). -/
def execUnsupFn8B (_sel : BitVec 6) (_mw _h : Px) (_pay : List Character) (s : State) :
    Host.Outcome State Fault Refusal := unsupported s

/-- FN 12 to 15: UnsupportedFormat (R84, R204). -/
def execUnsupFnCF (_sel : BitVec 6) (_mw _h : Px) (_pay : List Character) (s : State) :
    Host.Outcome State Fault Refusal := unsupported s

end Sys2Proof.Machine
end

