-- ==== Sys2Proof/Machine/Dispatch.lean ====
section
/-! DEFINITION. The dispatch: one arm per constructor of Instr, each one direct call of its meaning. -/

namespace Sys2Proof.Machine

def exec (i : Instr) (s : State) : Host.Outcome State Fault Refusal :=
  match i with
  | .renEan13 mw h pay => Sys2Proof.Machine.execRenEan13 mw h pay s
  | .renC128 mw h pay => Sys2Proof.Machine.execRenC128 mw h pay s
  | .encEan13 mw h pay => Sys2Proof.Machine.execEncEan13 mw h pay s
  | .encC128 mw h pay => Sys2Proof.Machine.execEncC128 mw h pay s
  | .chkEan13 mw h pay => Sys2Proof.Machine.execChkEan13 mw h pay s
  | .chkC128 mw h pay => Sys2Proof.Machine.execChkC128 mw h pay s
  | .compose mw h pay => Sys2Proof.Machine.execCompose mw h pay s
  | .unsupRen23 sel mw h pay => Sys2Proof.Machine.execUnsupRen23 sel mw h pay s
  | .unsupRen47 sel mw h pay => Sys2Proof.Machine.execUnsupRen47 sel mw h pay s
  | .unsupRen8F sel mw h pay => Sys2Proof.Machine.execUnsupRen8F sel mw h pay s
  | .unsupEnc23 sel mw h pay => Sys2Proof.Machine.execUnsupEnc23 sel mw h pay s
  | .unsupEnc47 sel mw h pay => Sys2Proof.Machine.execUnsupEnc47 sel mw h pay s
  | .unsupEnc8F sel mw h pay => Sys2Proof.Machine.execUnsupEnc8F sel mw h pay s
  | .unsupChk23 sel mw h pay => Sys2Proof.Machine.execUnsupChk23 sel mw h pay s
  | .unsupChk47 sel mw h pay => Sys2Proof.Machine.execUnsupChk47 sel mw h pay s
  | .unsupChk8F sel mw h pay => Sys2Proof.Machine.execUnsupChk8F sel mw h pay s
  | .unsupCompose1 mw h pay => Sys2Proof.Machine.execUnsupCompose1 mw h pay s
  | .unsupCompose23 sel mw h pay => Sys2Proof.Machine.execUnsupCompose23 sel mw h pay s
  | .unsupCompose47 sel mw h pay => Sys2Proof.Machine.execUnsupCompose47 sel mw h pay s
  | .unsupCompose8F sel mw h pay => Sys2Proof.Machine.execUnsupCompose8F sel mw h pay s
  | .unsupFn47 sel mw h pay => Sys2Proof.Machine.execUnsupFn47 sel mw h pay s
  | .unsupFn8B sel mw h pay => Sys2Proof.Machine.execUnsupFn8B sel mw h pay s
  | .unsupFnCF sel mw h pay => Sys2Proof.Machine.execUnsupFnCF sel mw h pay s

end Sys2Proof.Machine
end

