-- ==== Sys2Proof/Machine/HostPort.lean ====
section
/-! DEFINITION. What the host does to the engine (spec/70_reset_and_hazards.md R240, R241, R246, R247), and what
reset leaves. -/

namespace Sys2Proof.Machine

/-- The engine is idle when no request is in progress (R240, R246). -/
def State.idle (s : State) : Bool := s.req.isNone

/-- The host presents a request "only when the engine is idle" (R246); while it is busy there is no such event
(U13; log 14). A response that the host has not taken does not hinder it, a DESIGN CHOICE: it stays on the channel
until the next one replaces it (log 20). -/
def State.present (r : Request) (s : State) : Option State :=
  if s.idle then some { s with req := some r } else none

/-- The host takes the delivered response, which then belongs to it (R247). -/
def State.takeResponse (s : State) : Option Response × State :=
  (s.rsp, { s with rsp := none })

/-- The host asserts reset, when the engine is idle or during an operation (R240, R241). -/
def State.assertReset (s : State) : State := { s with resetIn := true }

/-- What reset leaves: idle, no request in progress, no response pending (R240); of a transaction in progress
nothing survives, not even an error response (R241); the transaction-local registers are unspecified (R27, R38),
free values (log 5). The tables are constants and keep their contents (R26). -/
def State.afterReset (s : State) : State where
  regs      := Config.freeRegisters s.freeIndex
  req       := none
  rsp       := none
  resetIn   := false
  freeIndex := s.freeIndex + 1

end Sys2Proof.Machine
end

