-- ==== Sys2Proof/Machine/Step.lean ====
section
/-! DEFINITION. One step: one transaction, or a reset, or nothing to do (spec/70_reset_and_hazards.md R240, R241,
R246), and how the host's checks place an instruction (log 14). -/

namespace Sys2Proof.Machine

/-- One step. With reset asserted the transaction is abandoned and the engine is idle (R240, R241; log 5). With no
request the engine stays idle (R240; log 2). Otherwise the request is decoded and its operation runs to its
response (R200, R246); a request outside the contract is refused (R73, R86; logs 7 and 8). -/
def step (s : State) : Host.Outcome State Fault Refusal :=
  if s.resetIn then .next s.afterReset
  else
    match s.req with
    | none   => .next s
    | some r =>
      match decode r with
      | .ok i                    => exec i s
      | .error .lengthMismatch   => .refused .lengthMismatch
      | .error .payloadWidth     => .refused .payloadWidth

/-- `s` with the request whose bits are `w` (the bits from `nbits` upward 0) presented by the host, and reset not
asserted: the next step runs exactly that request. Nothing else changes (log 1). -/
def State.withFetchWord (s : State) (nbits w : Nat) : State :=
  { s with req := some (requestOfBits (w % 2 ^ nbits)), resetIn := false }

end Sys2Proof.Machine
end

