-- ==== Sys2Proof/Machine/Driver.lean ====
section
/-! DEFINITION. The driver on the host's side: LCW's call forms and the requests they denote, and the matching of
format names (spec/30_encoding.md R70, R88, R89; U17). Not part of the engine (log 17). -/

namespace Sys2Proof.Machine

/-- The character codes of a text (R10, R90): one element per code point, of which a code beyond CHARW = 16 bits
keeps its low 16 bits. How text is cut into elements the spec leaves to the host (C5, D6); both are a DESIGN CHOICE
of the model (log 19). -/
def codes (s : String) : List Character := s.toList.map fun c => BitVec.ofNat 16 c.toNat

/-- LCW's SymbolRequest: value, format name, module width and height (R70). -/
structure SymbolRequest where
  value         : List Character
  format        : List Character
  moduleWidthPx : Px
  heightPx      : Px
  deriving DecidableEq, Repr

/-- LCW's call forms (R88). -/
inductive CallForm where
  | ean13Encode (s : List Character)
  | code128Encode (s : List Character)
  | compose (bits : List Bit) (moduleWidthPx heightPx : Px)
  | request (r : SymbolRequest)
  deriving DecidableEq, Repr

/-- FMT for a format name: exactly `ean13` is 0, exactly `code128` is 1, every other string is 15 (R89). -/
def formatCode (name : List Character) : BitVec 4 :=
  if name = codes "ean13" then 0
  else if name = codes "code128" then 1
  else 15

/-- A request from an operation code, dimensions and a payload whose length becomes LEN (R71, R90); a payload
beyond NMAX cannot be expressed (U16). -/
def buildRequest (op : BitVec 8) (mw h : Px) (pay : Payload) : Option Request :=
  if pay.length ≤ Config.nmax then
    some { hdr := Header.pack op mw h (BitVec.ofNat 24 pay.length), pay := pay }
  else none

/-- The request a call form denotes (R88). The direct encoder calls take no dimensions: MW and H are 0, as in the
textual form (R87). -/
def CallForm.toRequest : CallForm → Option Request
  | .ean13Encode s   => buildRequest 0x10 0 0 (.chars s)
  | .code128Encode s => buildRequest 0x11 0 0 (.chars s)
  | .compose bs mw h => buildRequest 0x30 mw h (.bits bs)
  | .request r       => buildRequest (0#4 ++ formatCode r.format) r.moduleWidthPx r.heightPx (.chars r.value)

end Sys2Proof.Machine
end

