-- ==== Sys2Proof/Machine/Assembler.lean ====
section
/-! DEFINITION. The textual form of a request (spec/30_encoding.md R87, R88, R90): `MNEMONIC  payload [, mw=<MW>,
h=<H>]`. A notation on the host's side, not part of the engine (log 17). -/

namespace Sys2Proof.Machine

/-- One decimal digit's value. -/
def decimalValue (c : Character) : Option Nat :=
  if isDigit c then some (c.toNat - 48) else none

/-- One hexadecimal digit's value, either case. -/
def hexValue (c : Character) : Option Nat :=
  if isDigit c then some (c.toNat - 48)
  else if 65 ≤ c.toNat ∧ c.toNat ≤ 70 then some (c.toNat - 55)
  else if 97 ≤ c.toNat ∧ c.toNat ≤ 102 then some (c.toNat - 87)
  else none

/-- The character that `\uXXXX` stands for, if `c` and the characters after it are such an escape (R87). -/
def escapeAt (c : Character) (rest : List Character) : Option Character :=
  match c.toNat, rest with
  | 92, u :: x3 :: x2 :: x1 :: x0 :: _ =>
    if u.toNat = 117 then do
      let v3 ← hexValue x3
      let v2 ← hexValue x2
      let v1 ← hexValue x1
      let v0 ← hexValue x0
      return BitVec.ofNat 16 (v3 * 4096 + v2 * 256 + v1 * 16 + v0)
    else none
  | _, _ => none

/-- A string literal after its opening quote: its characters, and what follows the closing quote. Every character
but an escape stands for its own code (R87, R90). The first argument is how many characters to skip. -/
def readString : Nat → List Character → Option (List Character × List Character)
  | _, []             => none
  | k + 1, _ :: rest  => readString k rest
  | 0, c :: rest =>
    if c.toNat = 34 then some ([], rest)
    else
      match escapeAt c rest with
      | some v => (readString 5 rest).map fun (s, tail) => (v :: s, tail)
      | none   => (readString 0 rest).map fun (s, tail) => (c :: s, tail)

/-- A pattern literal after its `b`: its bits, and what follows them (R87). -/
def readPattern : List Character → List Bit × List Character
  | [] => ([], [])
  | c :: rest =>
    if c.toNat = 48 ∨ c.toNat = 49 then
      let (bs, tail) := readPattern rest
      ((c.toNat == 49) :: bs, tail)
    else ([], c :: rest)

/-- Decimal digits to a number, from the value so far; what follows them. -/
def readDecimal : Nat → List Character → Nat × List Character
  | v, [] => (v, [])
  | v, c :: rest =>
    match decimalValue c with
    | some d => readDecimal (10 * v + d) rest
    | none   => (v, c :: rest)

/-- Spaces skipped. -/
def skipSpaces : List Character → List Character
  | [] => []
  | c :: rest => if c.toNat = 32 then skipSpaces rest else c :: rest

/-- What follows a fixed text, if the characters begin with it. -/
def after : List Character → List Character → Option (List Character)
  | [], cs => some cs
  | p :: ps, c :: cs => if p = c then after ps cs else none
  | _ :: _, [] => none

/-- `<name><decimal>` of PXW bits, at least one digit; larger values cannot be expressed (U16). -/
def readField (name : List Character) (cs : List Character) : Option (Px × List Character) := do
  let cs ← after name cs
  let c ← cs.head?
  let _ ← decimalValue c
  let (v, tail) := readDecimal 0 cs
  if v < 65536 then return (BitVec.ofNat 16 v, tail) else none

/-- `, mw=<MW>, h=<H>` to the end of the line, or nothing where `optional`: then both are 0 (R87). -/
def readDimensions (optional : Bool) (cs : List Character) : Option (Px × Px) :=
  if cs = [] then
    if optional then some (0, 0) else none
  else do
    let cs ← after (codes ",") cs
    let (mw, cs) ← readField (codes "mw=") (skipSpaces cs)
    let cs ← after (codes ",") cs
    let (h, cs) ← readField (codes "h=") (skipSpaces cs)
    if cs = [] then return (mw, h) else none

/-- The mnemonics with a string payload, their operation codes and whether the dimensions may be left out (R82,
R87, R88). -/
def stringMnemonics : List (List Character × BitVec 8 × Bool) :=
  [(codes "REN.EAN13", 0x00, false), (codes "REN.C128", 0x01, false), (codes "REN.UNSUP", 0x0F, false),
   (codes "ENC.EAN13", 0x10, true), (codes "ENC.C128", 0x11, true),
   (codes "CHK.EAN13", 0x20, true), (codes "CHK.C128", 0x21, true)]

/-- Everything up to the first space. -/
def readWord : List Character → List Character × List Character
  | [] => ([], [])
  | c :: rest =>
    if c.toNat = 32 then ([], c :: rest)
    else
      let (w, tail) := readWord rest
      (c :: w, tail)

/-- The request a line of the textual form denotes (R87); `none` where it is no such line. -/
def assemble (line : List Character) : Option Request := do
  let (word, tail) := readWord line
  let tail := skipSpaces tail
  if word = codes "COMPOSE" then
    let tail ← after (codes "b") tail
    let (bs, tail) := readPattern tail
    let (mw, h) ← readDimensions false tail
    buildRequest 0x30 mw h (.bits bs)
  else
    let (op, optional) ← stringMnemonics.lookup word
    let tail ← after (codes "\"") tail
    let (s, tail) ← readString 0 tail
    let (mw, h) ← readDimensions optional tail
    buildRequest op mw h (.chars s)

end Sys2Proof.Machine
end

