-- ==== Sys2Proof/Safety.lean ====
section
/-! DEFINITION. The terms claims are stated in: what a sound response and a sound state are, and LCW's formulas
written over natural numbers and whole sequences, without registers (spec/00_scope.md R12), for claims to compare
the engine with. The machine does not use them. -/

namespace Sys2Proof

namespace Machine

/-- The response an outcome leaves on the response channel, if the step goes on. -/
def responseOf : Host.Outcome State Fault Refusal → Option Response
  | .next s    => s.rsp
  | .fault _   => none
  | .refused _ => none

/-- A response with STATUS = OK and these fields (R76, R77). -/
def okResponse (checksum : Nat) (text : List Character) (bits : List Bit) (tiles : List TileWord) : Response :=
  Draft.respond statusOk { checksum := BitVec.ofNat 7 checksum, text := text, bits := bits, tiles := tiles }

/-- The records of R76 and R77 as a property of one response: the zero bits are 0, STATUS 3 is never produced, the
counts are the lengths of the sequences, CHECKSUM is at most 102, an error carries nothing, and all descriptors
have one width and one height (R186). -/
def Response.Sound (r : Response) : Prop :=
  r.status ≠ 3 ∧
  r.rsp0.extractLsb' 9 23 = 0 ∧ r.rsp0.extractLsb' 56 8 = 0 ∧
  r.tlen.toNat = r.text.length ∧ r.blen.toNat = r.bits.length ∧ r.nt.toNat = r.tiles.length ∧
  r.checksum.toNat ≤ 102 ∧
  (r.status ≠ statusOk → r.checksum = 0 ∧ r.text = [] ∧ r.bits = [] ∧ r.tiles = []) ∧
  (∀ t ∈ r.tiles, ∀ u ∈ r.tiles, Tile.wpx t = Tile.wpx u ∧ Tile.hpx t = Tile.hpx u)

/-- The invariant of the response channel: whatever response is on it is sound. -/
def State.Sound (s : State) : Prop := ∀ r, s.rsp = some r → r.Sound

end Machine

/-! ### LCW's formulas -/

namespace Spec

open Machine

/-- The digit values of the digit characters, in order (R101, R102). -/
def digits (pay : List Character) : List Nat :=
  ((pay.map BitVec.toNat).filter fun c => 48 ≤ c ∧ c ≤ 57).map (· - 48)

/-- The 12 digits that are kept (R104). -/
def kept (pay : List Character) : List Nat := (digits pay).take 12

/-- Weights 1, 3, 1, 3, ... from the left, starting with the given one, and the weighted sum (R106). -/
def weighted : Nat → List Nat → Nat
  | _, []           => 0
  | weight, d :: ds => weight * d + weighted (4 - weight) ds

/-- The check digit (R107). -/
def eanCheck (ds : List Nat) : Nat :=
  if weighted 1 ds % 10 = 0 then 0 else 10 - weighted 1 ds % 10

/-- The 13 digits: those kept and the check digit. -/
def eanDigits (pay : List Character) : List Nat := kept pay ++ [eanCheck (kept pay)]

/-- The display text: the 13 digits as characters (R110). -/
def eanText (pay : List Character) : List Character := (eanDigits pay).map fun d => BitVec.ofNat 16 (48 + d)

/-- The code of a digit in a table, leftmost module first (R55). -/
def code (table : List (BitVec 7)) (d : Nat) : List Bit := msbFirst (table.getD d 0)

/-- The left codes: digit by digit, L or G as the parity bits say (R125, R126). -/
def leftCodes : List Bit → List Nat → List Bit
  | p :: ps, d :: ds => code (if p then gRom else lRom) d ++ leftCodes ps ds
  | _, _ => []

/-- The 95-module pattern of 13 digits (R126). -/
def eanBits (ds : List Nat) : List Bit :=
  [true, false, true] ++
  leftCodes (msbFirst (parityRom.getD (ds.headD 0) 0)) ((ds.drop 1).take 6) ++
  [false, true, false, true, false] ++
  ((ds.drop 7).take 6).flatMap (code rRom) ++
  [true, false, true]

/-- The data symbol values (R142). -/
def symbols (pay : List Character) : List Nat :=
  pay.map fun c => if 32 ≤ c.toNat ∧ c.toNat ≤ 127 then c.toNat - 32 else 63 - 32

/-- Sum of value times position, the first value standing at the given position (R144). -/
def positionSum : Nat → List Nat → Nat
  | _, []      => 0
  | i, v :: vs => v * i + positionSum (i + 1) vs

/-- The running weighted sum at the end (R144). -/
def c128Sum (pay : List Character) : Nat := 104 + positionSum 1 (symbols pay)

/-- The check symbol value (R145). -/
def c128Check (pay : List Character) : Nat := c128Sum pay % 103

/-- The same, reduced as it goes (R147): from `A` so far and the position of the next symbol. -/
def reducedCheck : Nat → Nat → List Nat → Nat
  | a, _, []      => a
  | a, i, v :: vs => reducedCheck ((a + v * (i % 103) % 103) % 103) (i + 1) vs

/-- Bars and spaces in turn, each as wide as its element; the flag says whether the next is a bar (R163). -/
def elements : Bit → List Nat → List Bit
  | _, []           => []
  | bar, w :: ws => List.replicate w bar ++ elements (!bar) ws

/-- The modules of a symbol value (R161, R163). -/
def symbol (v : Nat) : List Bit := elements true (patternRom.getD v [])

/-- The Code128-B pattern of a payload (R166, R167). -/
def c128Bits (pay : List Character) : List Bit :=
  List.replicate 10 false ++ symbol 104 ++ (symbols pay).flatMap symbol ++ symbol (c128Check pay) ++ symbol 106 ++
  List.replicate 10 false

/-- A pattern padded with 0 bits to a multiple of 5 (R180). -/
def padded (p : List Bit) : List Bit := p ++ List.replicate ((5 - p.length % 5) % 5) false

/-- How many tiles a pattern of `n` modules takes, `ceil(n/5)` (R181). -/
def tileCount (n : Nat) : Nat := (n + 4) / 5

/-- The value of group `k`: modules 5k to 5k+4, the first most significant (R181). A module beyond the pattern is a
padding 0. -/
def groupValue (p : List Bit) (k : Nat) : Nat :=
  16 * (p.getD (5 * k) false).toNat + 8 * (p.getD (5 * k + 1) false).toNat + 4 * (p.getD (5 * k + 2) false).toNat +
  2 * (p.getD (5 * k + 3) false).toNat + (p.getD (5 * k + 4) false).toNat

/-- A descriptor by its fields: `REF + WPX*2^5 + HPX*2^24` (R78), with WPX = 5*MW and HPX = H (R186). -/
def descriptor (g mw h : Nat) : TileWord := BitVec.ofNat 40 (g + (5 * mw) * 2 ^ 5 + h * 2 ^ 24)

/-- The descriptors of a pattern (R185). -/
def tiles (p : List Bit) (mw h : Px) : List TileWord :=
  (List.range (tileCount p.length)).map fun k => descriptor (groupValue p k) mw.toNat h.toNat

end Spec

end Sys2Proof
end

