-- ==== Sys2Proof/Certificates/Slice0/Obligations.lean ====
section
/-! DEFINITION. The statements for the provers. Each docstring names the rules of spec/ it formalises. Where a
statement speaks of LCW's formulas it uses `Spec` (Safety.lean), which is written without registers. -/

open Sys2Proof Sys2Proof.Machine

/-! ### Steps, reset, the interface -/

/-- R240, R38: after reset no request is in progress and no response is pending, and any request can be
presented. -/
def Obligations.ResetStateIsIdle : Prop :=
  State.reset.idle = true ∧ State.reset.rsp = none ∧
  ∀ r : Request, State.reset.present r = some { State.reset with req := some r }

/-- R240, R241: with reset asserted a step abandons whatever is in progress: no response, not even an error, and
an idle engine. What the registers hold then is a free value, the model's choice (log 5), and is left out. -/
def Obligations.ResetAbandonsTheTransaction : Prop :=
  ∀ s : State, s.resetIn = true →
    ∃ t : State, step s = .next t ∧ t.idle = true ∧ t.rsp = none ∧ t.resetIn = false

/-- R241: the request that reset cut off, sent again, gets the response it would have had. -/
def Obligations.ResentRequestGetsItsResponse : Prop :=
  ∀ (s t u : State) (r : Request), s.req = some r → s.resetIn = false →
    step s.assertReset = .next t → t.present r = some u →
    responseOf (step u) = responseOf (step s)

/-- R246: the step of a presented request is the execution of the instruction it decodes to. -/
def Obligations.StepRunsTheDecodedInstruction : Prop :=
  ∀ (s : State) (r : Request) (i : Instr), s.resetIn = false → s.req = some r → decode r = .ok i →
    step s = exec i s

/-- R73: a payload with more or fewer elements than LEN is refused; LEN is at most NMAX; LEN = 0 is legal for
every operation code. -/
def Obligations.LengthMustMatchPayload : Prop :=
  (∀ (s : State) (r : Request), s.resetIn = false → s.req = some r →
    r.pay.length ≠ (Header.len r.hdr).toNat → step s = .refused .lengthMismatch) ∧
  (∀ hdr : BitVec 64, (Header.len hdr).toNat ≤ Config.nmax) ∧
  (∀ (op : BitVec 8) (mw h : Px),
    ∃ i, decode ⟨Header.pack op mw h 0, if op = 0x30 then .bits [] else .chars []⟩ = .ok i)

/-- Everything a step can do when it goes on: leave reset, stay idle, or answer the request it was given with one
response. The frame of every operation: nothing else of the interface changes (R20, R217, R219, R246). -/
def Obligations.StepAnswersOneRequestOrIdles : Prop :=
  ∀ s t : State, step s = .next t →
    (s.resetIn = true ∧ t = s.afterReset) ∨
    (s.resetIn = false ∧ s.req = none ∧ t = s) ∨
    (s.resetIn = false ∧ s.req ≠ none ∧ ∃ r : Response,
      t.rsp = some r ∧ t.req = none ∧ t.resetIn = false)

/-- From R213, R51 and R27: no step ends in a model fault, so no step reads a table out of its range or an element
of the register D that the operation has not written (log 15: these are the two things the model faults for). -/
def Obligations.NoStepFaults : Prop :=
  ∀ (s : State) (f : Fault), step s ≠ .fault f

/-- R213: every well-formed instruction within the contract of R74 runs to a response, from every state. -/
def Obligations.EveryInstructionInContractCompletes : Prop :=
  ∀ (i : Instr) (s : State), i.WellFormed → i.DimensionsOk →
    ∃ r : Response, exec i s = .next (s.deliver r)

/-- R6, R13, R20, R246: what an instruction answers is a function of the request alone; the state it runs in,
registers left by earlier operations included, has no influence. -/
def Obligations.ResponseIsAFunctionOfTheRequest : Prop :=
  ∀ i : Instr,
    (∃ r : Response, ∀ s : State, exec i s = .next (s.deliver r)) ∨
    (∃ f : Fault, ∀ s : State, exec i s = .fault f) ∨
    (∃ q : Refusal, ∀ s : State, exec i s = .refused q)

/-- R220, R249: whatever a step answered, error or not, the next request is answered as it would be after reset. -/
def Obligations.EarlierRequestsLeaveNothingBehind : Prop :=
  ∀ (s t u v : State) (r : Request), s.req ≠ none → s.resetIn = false → step s = .next t →
    t.present r = some u → State.reset.present r = some v →
    responseOf (step u) = responseOf (step v)

/-- R76, R77, R186, R217: the response channel stays sound over every step, from every state. -/
def Obligations.StepKeepsResponsesSound : Prop :=
  ∀ s t : State, s.Sound → step s = .next t → t.Sound

/-- The invariant of StepKeepsResponsesSound holds after reset. -/
def Obligations.ResetResponseChannelIsSound : Prop :=
  State.reset.Sound

/-! ### Encoding -/

/-- R71, R80 to R86: decoding the encoding of a well-formed instruction gives it back, every operand included. -/
def Obligations.DecodeOfEncodeIsTheInstruction : Prop :=
  ∀ i : Instr, i.WellFormed → decode (encode i) = .ok i

/-- R71, R82 to R86: a request decodes to at most one instruction, whose encoding is that very request. -/
def Obligations.EncodeOfDecodeIsTheRequest : Prop :=
  ∀ (r : Request) (i : Instr), decode r = .ok i → encode i = r

/-- R71: `HDR = OP + MW*2^8 + H*2^24 + LEN*2^40`, and the fields are read where the table of R71 puts them. -/
def Obligations.HeaderFieldsArePlaced : Prop :=
  (∀ (op : BitVec 8) (mw h : Px) (len : BitVec 24),
    (Header.pack op mw h len).toNat = op.toNat + mw.toNat * 2 ^ 8 + h.toNat * 2 ^ 24 + len.toNat * 2 ^ 40) ∧
  (∀ hdr : BitVec 64,
    (Header.op hdr).toNat = hdr.toNat % 2 ^ 8 ∧ (Header.mw hdr).toNat = hdr.toNat / 2 ^ 8 % 2 ^ 16 ∧
    (Header.h hdr).toNat = hdr.toNat / 2 ^ 24 % 2 ^ 16 ∧ (Header.len hdr).toNat = hdr.toNat / 2 ^ 40 ∧
    (Op.fmt (Header.op hdr)).toNat = hdr.toNat % 2 ^ 4 ∧ (Op.fn (Header.op hdr)).toNat = hdr.toNat / 2 ^ 4 % 2 ^ 4)

/-- R83, R84, R85: each of the other 249 operation codes, with any dimensions and characters, decodes to an
instruction that answers UnsupportedFormat and nothing else, from every state. -/
def Obligations.OtherOperationCodesAreUnsupported : Prop :=
  ∀ op : BitVec 8, op ∉ [0x00#8, 0x01#8, 0x10#8, 0x11#8, 0x20#8, 0x21#8, 0x30#8] →
    ∀ (mw h : Px) (cs : List Character) (s : State),
      ∃ i, decodeOp op mw h (.chars cs) = .ok i ∧ exec i s = .next (s.raiseError .unsupportedFormat)

/-- Request words written out from R71 and R82, one per operation and one of R83 (S5, W4 and X1 of
spec/95_test_vectors.md among them), decode to their instructions. -/
def Obligations.SampleWordsDecode : Prop :=
  decode ⟨0x000001003C000300#64, .chars [48]⟩ = .ok (.renEan13 3 60 [48]) ∧
  decode ⟨0x0000010032000201#64, .chars [65]⟩ = .ok (.renC128 2 50 [65]) ∧
  decode ⟨0x0000010000000010#64, .chars [48]⟩ = .ok (.encEan13 0 0 [48]) ∧
  decode ⟨0x0000020000000011#64, .chars [65, 66]⟩ = .ok (.encC128 0 0 [65, 66]) ∧
  decode ⟨0x0000000000000020#64, .chars []⟩ = .ok (.chkEan13 0 0 []) ∧
  decode ⟨0x0000010000000021#64, .chars [65]⟩ = .ok (.chkC128 0 0 [65]) ∧
  decode ⟨0x0000010032000230#64, .bits [true]⟩ = .ok (.compose 2 50 [true]) ∧
  decode ⟨0x000001003200020F#64, .chars [88]⟩ = .ok (.unsupRen8F 7 2 50 [88])

/-- The opcode table's rows partition the operation codes (R82 to R84), and the decoder follows them: what an
operation code decodes to carries that code and the mnemonic of every row the code matches. -/
def Obligations.DecoderFollowsTheOpcodeTable : Prop :=
  (∀ op : BitVec 8, (opcodeTable.filter fun r => op &&& r.mask = r.pattern).length = 1) ∧
  ∀ (op : BitVec 8) (mw h : Px) (pay : Payload) (i : Instr), decodeOp op mw h pay = .ok i →
    i.op = op ∧ i.mw = mw ∧ i.h = h ∧ i.payload = pay ∧
    ∀ r ∈ opcodeTable, op &&& r.mask = r.pattern → r.mnemonic = i.mnemonic

/-- The model's refusal (log 8), from R86: elements whose width is not the one OP gives them are refused. -/
def Obligations.ElementWidthMustFollowOperation : Prop :=
  ∀ (s : State) (r : Request), s.resetIn = false → s.req = some r → r.pay.length = (Header.len r.hdr).toNat →
    (Header.op r.hdr = 0x30 → ∀ cs, r.pay = .chars cs → step s = .refused .payloadWidth) ∧
    (Header.op r.hdr ≠ 0x30 → ∀ bs, r.pay = .bits bs → step s = .refused .payloadWidth)

/-! ### Errors and contracts -/

/-- R217, R211, R212: `raise` delivers STATUS with every other field 0 or empty, and the engine is idle again; the
reset input is left alone. -/
def Obligations.RaiseDeliversABareError : Prop :=
  ∀ (e : ErrorResult) (s : State), ∃ r : Response,
    (s.raiseError e).rsp = some r ∧ (s.raiseError e).idle = true ∧ (s.raiseError e).resetIn = s.resetIn ∧
    r.status = (match e with | .invalidInput => 1 | .unsupportedFormat => 2) ∧
    r.checksum = 0 ∧ r.tlen = 0 ∧ r.blen = 0 ∧ r.nt = 0 ∧ r.text = [] ∧ r.bits = [] ∧ r.tiles = []

/-- R103: with fewer than 12 digits CHK.EAN13, ENC.EAN13 and, within its contract, REN.EAN13 answer InvalidInput;
with 12 or more they answer OK. -/
def Obligations.TooFewDigitsIsInvalidInput : Prop :=
  ∀ (mw h : Px) (pay : List Character) (s : State), pay.length ≤ Config.nmax →
    ((Spec.digits pay).length < 12 →
      exec (.chkEan13 mw h pay) s = .next (s.raiseError .invalidInput) ∧
      exec (.encEan13 mw h pay) s = .next (s.raiseError .invalidInput) ∧
      (mw ≠ 0 → h ≠ 0 → exec (.renEan13 mw h pay) s = .next (s.raiseError .invalidInput))) ∧
    (12 ≤ (Spec.digits pay).length →
      (responseOf (exec (.chkEan13 mw h pay) s)).map Response.status = some statusOk ∧
      (responseOf (exec (.encEan13 mw h pay) s)).map Response.status = some statusOk ∧
      (mw ≠ 0 → h ≠ 0 → (responseOf (exec (.renEan13 mw h pay) s)).map Response.status = some statusOk))

/-- R204: the sixteen UNSUP rows answer UnsupportedFormat whatever their free OP bits, MW, H and payload. -/
def Obligations.UnsupportedRowsAnswerUnsupportedFormat : Prop :=
  ∀ (a : BitVec 1) (b : BitVec 2) (c : BitVec 3) (d : BitVec 6) (mw h : Px) (pay : List Character) (s : State),
    exec (.unsupRen23 a mw h pay) s = .next (s.raiseError .unsupportedFormat) ∧
    exec (.unsupRen47 b mw h pay) s = .next (s.raiseError .unsupportedFormat) ∧
    exec (.unsupRen8F c mw h pay) s = .next (s.raiseError .unsupportedFormat) ∧
    exec (.unsupEnc23 a mw h pay) s = .next (s.raiseError .unsupportedFormat) ∧
    exec (.unsupEnc47 b mw h pay) s = .next (s.raiseError .unsupportedFormat) ∧
    exec (.unsupEnc8F c mw h pay) s = .next (s.raiseError .unsupportedFormat) ∧
    exec (.unsupChk23 a mw h pay) s = .next (s.raiseError .unsupportedFormat) ∧
    exec (.unsupChk47 b mw h pay) s = .next (s.raiseError .unsupportedFormat) ∧
    exec (.unsupChk8F c mw h pay) s = .next (s.raiseError .unsupportedFormat) ∧
    exec (.unsupCompose1 mw h pay) s = .next (s.raiseError .unsupportedFormat) ∧
    exec (.unsupCompose23 a mw h pay) s = .next (s.raiseError .unsupportedFormat) ∧
    exec (.unsupCompose47 b mw h pay) s = .next (s.raiseError .unsupportedFormat) ∧
    exec (.unsupCompose8F c mw h pay) s = .next (s.raiseError .unsupportedFormat) ∧
    exec (.unsupFn47 d mw h pay) s = .next (s.raiseError .unsupportedFormat) ∧
    exec (.unsupFn8B d mw h pay) s = .next (s.raiseError .unsupportedFormat) ∧
    exec (.unsupFnCF d mw h pay) s = .next (s.raiseError .unsupportedFormat)

/-- R74: REN and COMPOSE with MW = 0 or H = 0 are refused; CHK, ENC and the unsupported operation codes ignore MW
and H. -/
def Obligations.DimensionsAreRequiredOrIgnored : Prop :=
  (∀ (mw h : Px) (cs : List Character) (bs : List Bit) (s : State), mw = 0 ∨ h = 0 →
    exec (.renEan13 mw h cs) s = .refused .zeroDimension ∧
    exec (.renC128 mw h cs) s = .refused .zeroDimension ∧
    exec (.compose mw h bs) s = .refused .zeroDimension) ∧
  (∀ (mw h mw' h' : Px) (cs : List Character) (s : State),
    exec (.chkEan13 mw h cs) s = exec (.chkEan13 mw' h' cs) s ∧
    exec (.chkC128 mw h cs) s = exec (.chkC128 mw' h' cs) s ∧
    exec (.encEan13 mw h cs) s = exec (.encEan13 mw' h' cs) s ∧
    exec (.encC128 mw h cs) s = exec (.encC128 mw' h' cs) s) ∧
  (∀ op : BitVec 8, op ∉ [0x00#8, 0x01#8, 0x10#8, 0x11#8, 0x20#8, 0x21#8, 0x30#8] →
    ∀ (mw h mw' h' : Px) (cs : List Character) (s : State), ∃ i j,
      decodeOp op mw h (.chars cs) = .ok i ∧ decodeOp op mw' h' (.chars cs) = .ok j ∧ exec i s = exec j s)

/-! ### EAN-13, register by register -/

/-- R102: strip writes D with the digit values of the digit characters in payload order and NDIG with their number,
which is at most LEN; every other register and the response are as before. -/
def Obligations.StripWritesDigitRegisters : Prop :=
  ∀ (pay : List Character) (w : Work), pay.length ≤ Config.nmax →
    (strip pay w).regs.d.map BitVec.toNat = Spec.digits pay ∧
    (strip pay w).regs.ndig.toNat = (Spec.digits pay).length ∧
    (Spec.digits pay).length ≤ pay.length ∧
    strip pay w = { w with regs := { w.regs with d := (strip pay w).regs.d, ndig := (strip pay w).regs.ndig } }

/-- R104: with 12 or more digits in D, truncate copies the first 12 to DIG[0..11]; DIG[12] and every other register
and the response are as before. -/
def Obligations.TruncateCopiesTwelveDigits : Prop :=
  ∀ w : Work, 12 ≤ w.regs.d.length → ∃ dig : Vector Digit 13,
    truncate w = .ok { w with regs := { w.regs with dig := dig } } ∧
    dig.toList = w.regs.d.take 12 ++ [w.regs.dig[12]]

/-- R105 to R108: from twelve decimal digits, the sums, the total and the check digit, exactly and within the
bounds of R108; every other register and the response are as before. -/
def Obligations.CheckDigitRegistersAreExact : Prop :=
  ∀ w : Work, (∀ (k : Nat) (hk : k < 12), (w.regs.dig[k]).toNat ≤ 9) →
    ∃ (sumo sume : BitVec 6) (tot : BitVec 8) (c : BitVec 4),
      checkDigit (total (sums w)) =
        { w with regs := { w.regs with
            sumo := sumo, sume := sume, tot := tot, chk10 := c, dig := w.regs.dig.set 12 c } } ∧
      sumo.toNat = w.regs.dig[0].toNat + w.regs.dig[2].toNat + w.regs.dig[4].toNat + w.regs.dig[6].toNat +
        w.regs.dig[8].toNat + w.regs.dig[10].toNat ∧
      sume.toNat = w.regs.dig[1].toNat + w.regs.dig[3].toNat + w.regs.dig[5].toNat + w.regs.dig[7].toNat +
        w.regs.dig[9].toNat + w.regs.dig[11].toNat ∧
      tot.toNat = 3 * sume.toNat + sumo.toNat ∧
      c.toNat = (if tot.toNat % 10 ≠ 0 then 10 - tot.toNat % 10 else 0) ∧
      sumo.toNat ≤ 54 ∧ sume.toNat ≤ 54 ∧ tot.toNat ≤ 216 ∧ c.toNat ≤ 9

/-- R125: PAR is the parity string that the leading digit selects; every other register and the response are as
before. -/
def Obligations.ParityRegisterIsSelectedByLeadingDigit : Prop :=
  ∀ w : Work, w.regs.dig[0].toNat ≤ 9 → ∃ par : Vector Bit 6,
    selectParity w = .ok { w with regs := { w.regs with par := par } } ∧
    par.toList = msbFirst (parityRom.getD w.regs.dig[0].toNat 0)

/-- The frame of the EAN-13 part on the registers: it writes only D, NDIG, DIG, SUMO, SUME, TOT, CHK10 and PAR
(R28, R29), and of the response only CHECKSUM and TEXT (R110). -/
def Obligations.EanPartWritesOnlyItsRegisters : Prop :=
  ∀ (pay : List Character) (w v : Work) (b : List Bit), eanPattern pay w = .ok (v, b) →
    v.regs.n = w.regs.n ∧ v.regs.sym = w.regs.sym ∧ v.regs.pos = w.regs.pos ∧ v.regs.acc = w.regs.acc ∧
    v.regs.chk103 = w.regs.chk103 ∧ v.regs.pol = w.regs.pol ∧ v.regs.padded = w.regs.padded ∧
    v.regs.ng = w.regs.ng ∧ v.regs.grp = w.regs.grp ∧
    v.out.bits = w.out.bits ∧ v.out.tiles = w.out.tiles

/-! ### EAN-13 results -/

/-- R101 to R107, R110, R111: with 12 or more digits CHK.EAN13 answers OK with the check digit and the 13-digit
text, and no bits or tiles. -/
def Obligations.ChkEan13AnswersCheckDigitAndText : Prop :=
  ∀ (mw h : Px) (pay : List Character) (s : State),
    pay.length ≤ Config.nmax → 12 ≤ (Spec.digits pay).length →
    exec (.chkEan13 mw h pay) s =
      .next (s.deliver (okResponse (Spec.eanCheck (Spec.kept pay)) (Spec.eanText pay) [] []))

/-- R127, R126: with 12 or more digits ENC.EAN13 answers what CHK.EAN13 answers and the pattern of the 13
digits. -/
def Obligations.EncEan13AnswersThePattern : Prop :=
  ∀ (mw h : Px) (pay : List Character) (s : State),
    pay.length ≤ Config.nmax → 12 ≤ (Spec.digits pay).length →
    exec (.encEan13 mw h pay) s =
      .next (s.deliver (okResponse (Spec.eanCheck (Spec.kept pay)) (Spec.eanText pay)
        (Spec.eanBits (Spec.eanDigits pay)) []))

/-- R202: with 12 or more digits and positive dimensions REN.EAN13 answers the check digit, the text and the tiles
of the pattern, and no bits. -/
def Obligations.RenEan13AnswersTheTiles : Prop :=
  ∀ (mw h : Px) (pay : List Character) (s : State),
    pay.length ≤ Config.nmax → 12 ≤ (Spec.digits pay).length → mw ≠ 0 → h ≠ 0 →
    exec (.renEan13 mw h pay) s =
      .next (s.deliver (okResponse (Spec.eanCheck (Spec.kept pay)) (Spec.eanText pay) []
        (Spec.tiles (Spec.eanBits (Spec.eanDigits pay)) mw h)))

/-- R109(b): the 13 digits of an EAN-13 text, weighted 1, 3, 1, ..., sum to a multiple of 10, and no other last
digit does that. -/
def Obligations.ThirteenDigitsSumToAMultipleOfTen : Prop :=
  ∀ (mw h : Px) (pay : List Character) (s : State),
    pay.length ≤ Config.nmax → 12 ≤ (Spec.digits pay).length →
    ∃ r : Response, responseOf (exec (.chkEan13 mw h pay) s) = some r ∧ r.text.length = 13 ∧
      (Spec.weighted 1 (r.text.map fun c => c.toNat - 48)) % 10 = 0 ∧
      ∀ c : Nat, c ≤ 9 → (Spec.weighted 1 ((r.text.take 12).map fun c => c.toNat - 48) + c) % 10 = 0 →
        r.checksum.toNat = c

/-- R104: what follows the twelfth digit, and what is not a digit, has no effect on any output of the three EAN-13
operations. -/
def Obligations.OnlyFirstTwelveDigitsMatter : Prop :=
  ∀ (mw h : Px) (p q : List Character) (s : State),
    p.length ≤ Config.nmax → q.length ≤ Config.nmax →
    12 ≤ (Spec.digits p).length → 12 ≤ (Spec.digits q).length → Spec.kept p = Spec.kept q →
    exec (.chkEan13 mw h p) s = exec (.chkEan13 mw h q) s ∧
    exec (.encEan13 mw h p) s = exec (.encEan13 mw h q) s ∧
    exec (.renEan13 mw h p) s = exec (.renEan13 mw h q) s

/-- R129: the 95 bits by index: guards at 0 to 2, 45 to 49 and 92 to 94, the code of d(j+1) at 3 + 7j and that of
d(7+j) at 50 + 7j. -/
def Obligations.EanPatternLayout : Prop :=
  ∀ (mw h : Px) (pay : List Character) (s : State),
    pay.length ≤ Config.nmax → 12 ≤ (Spec.digits pay).length →
    ∃ r : Response, responseOf (exec (.encEan13 mw h pay) s) = some r ∧
      r.bits.length = 95 ∧
      r.bits.take 3 = [true, false, true] ∧
      (r.bits.drop 45).take 5 = [false, true, false, true, false] ∧
      r.bits.drop 92 = [true, false, true] ∧
      ∀ j < 6,
        (r.bits.drop (3 + 7 * j)).take 7 =
          Spec.code (if (msbFirst (parityRom.getD ((Spec.eanDigits pay).getD 0 0) 0)).getD j false then gRom else lRom)
            ((Spec.eanDigits pay).getD (j + 1) 0) ∧
        (r.bits.drop (50 + 7 * j)).take 7 = Spec.code rRom ((Spec.eanDigits pay).getD (7 + j) 0)

/-- R202's corner cases: an EAN-13 render always has 19 tiles, the first 20 or 21, the tenth 10, the last 5 or
21. -/
def Obligations.EanRenderEnds : Prop :=
  ∀ (mw h : Px) (pay : List Character) (s : State),
    pay.length ≤ Config.nmax → 12 ≤ (Spec.digits pay).length → mw ≠ 0 → h ≠ 0 →
    ∃ (r : Response) (refs : List Nat), responseOf (exec (.renEan13 mw h pay) s) = some r ∧
      refs = r.tiles.map (fun t => (Tile.ref t).toNat) ∧ refs.length = 19 ∧
      refs.getD 0 0 ∈ [20, 21] ∧ refs.getD 9 0 = 10 ∧ refs.getD 18 0 ∈ [5, 21]

/-! ### Code128-B, register by register -/

/-- R141, R142: N is the payload length and SYM the symbol values; every other register and the response are as
before. -/
def Obligations.MapperWritesSymbols : Prop :=
  ∀ (pay : List Character) (w : Work), pay.length ≤ Config.nmax →
    ∃ (n : BitVec 24) (sym : List SymbolValue),
      mapSymbols pay (countCharacters pay w) = { w with regs := { w.regs with n := n, sym := sym } } ∧
      n.toNat = pay.length ∧ sym.map BitVec.toNat = Spec.symbols pay

/-- R144, R146: ACC ends at 104 plus each symbol value times its 1-indexed position, with no wrap up to NMAX
symbols, and within R146's bound; POS, where there is a symbol, ends at N; every other register and the response
are as before. -/
def Obligations.WeightedSumIsExact : Prop :=
  ∀ w : Work, w.regs.sym.length = w.regs.n.toNat → (∀ v ∈ w.regs.sym, v.toNat ≤ 95) →
    ∃ (pos : BitVec 25) (acc : BitVec 64),
      weightedSum w = { w with regs := { w.regs with pos := pos, acc := acc } } ∧
      acc.toNat = 104 + Spec.positionSum 1 (w.regs.sym.map BitVec.toNat) ∧
      acc.toNat ≤ 104 + 95 * (w.regs.n.toNat * (w.regs.n.toNat + 1) / 2) ∧
      (w.regs.n ≠ 0 → pos.toNat = w.regs.n.toNat)

/-- R145: CHK103 and CHECKSUM become ACC mod 103, in 0 to 102; every other register and the rest of the response
are as before. -/
def Obligations.CheckSymbolIsSumModulo103 : Prop :=
  ∀ w : Work, ∃ v : SymbolValue,
    checkSymbol w = { w with regs := { w.regs with chk103 := v }, out := { w.out with checksum := v } } ∧
    v.toNat = w.regs.acc.toNat % 103 ∧ v.toNat ≤ 102

/-- The frame of the Code128-B part on the registers: it writes only N, SYM, POS, ACC, CHK103 and POL (R30), and of
the response only CHECKSUM and TEXT. -/
def Obligations.C128PartWritesOnlyItsRegisters : Prop :=
  ∀ (pay : List Character) (w v : Work) (b : List Bit), c128Pattern pay w = .ok (v, b) →
    v.regs.d = w.regs.d ∧ v.regs.ndig = w.regs.ndig ∧ v.regs.dig = w.regs.dig ∧ v.regs.sumo = w.regs.sumo ∧
    v.regs.sume = w.regs.sume ∧ v.regs.tot = w.regs.tot ∧ v.regs.chk10 = w.regs.chk10 ∧ v.regs.par = w.regs.par ∧
    v.regs.padded = w.regs.padded ∧ v.regs.ng = w.regs.ng ∧ v.regs.grp = w.regs.grp ∧
    v.out.bits = w.out.bits ∧ v.out.tiles = w.out.tiles

/-! ### Code128-B results -/

/-- R141 to R145, R148, R149: CHK.C128 answers OK for every payload, with the check symbol value and the payload
itself as text. -/
def Obligations.ChkC128AnswersCheckSymbolAndText : Prop :=
  ∀ (mw h : Px) (pay : List Character) (s : State), pay.length ≤ Config.nmax →
    exec (.chkC128 mw h pay) s = .next (s.deliver (okResponse (Spec.c128Check pay) pay [] []))

/-- R168, R166, R167: ENC.C128 answers what CHK.C128 answers and the pattern of the payload. -/
def Obligations.EncC128AnswersThePattern : Prop :=
  ∀ (mw h : Px) (pay : List Character) (s : State), pay.length ≤ Config.nmax →
    exec (.encC128 mw h pay) s =
      .next (s.deliver (okResponse (Spec.c128Check pay) pay (Spec.c128Bits pay) []))

/-- R203: with positive dimensions REN.C128 answers the check symbol value, the payload as text and the tiles of the
pattern, and no bits. -/
def Obligations.RenC128AnswersTheTiles : Prop :=
  ∀ (mw h : Px) (pay : List Character) (s : State), pay.length ≤ Config.nmax → mw ≠ 0 → h ≠ 0 →
    exec (.renC128 mw h pay) s =
      .next (s.deliver (okResponse (Spec.c128Check pay) pay [] (Spec.tiles (Spec.c128Bits pay) mw h)))

/-- R147: the CHECKSUM that CHK.C128 answers is the one that reducing modulo 103 at every symbol gives, starting
from 104 mod 103 = 1, and every intermediate of that computation stays below 103 + 95*102. -/
def Obligations.ReducedChecksumIsTheChecksum : Prop :=
  (∀ (mw h : Px) (pay : List Character) (s : State), pay.length ≤ Config.nmax →
    ∃ r : Response, responseOf (exec (.chkC128 mw h pay) s) = some r ∧
      r.checksum.toNat = Spec.reducedCheck (104 % 103) 1 (Spec.symbols pay)) ∧
  ∀ a v i : Nat, a < 103 → v ≤ 95 → a + v * (i % 103) < 103 + 95 * 102

/-- R143, R142: replacing every character outside [32,127] by `?` changes neither the check symbol nor the bits of
ENC.C128; TEXT is the payload as given. -/
def Obligations.SubstitutionShowsOnlyInText : Prop :=
  ∀ (mw h : Px) (pay : List Character) (s : State), pay.length ≤ Config.nmax →
    ∃ r q : Response,
      responseOf (exec (.encC128 mw h pay) s) = some r ∧
      responseOf (exec (.encC128 mw h
        (pay.map fun c => if 32 ≤ c.toNat ∧ c.toNat ≤ 127 then c else 63)) s) = some q ∧
      r.checksum = q.checksum ∧ r.bits = q.bits ∧ r.text = pay

/-- R164: the length of `w2b` is the sum of the widths, the first bit is a bar, the last bit is a bar for an odd
number of widths and a space for an even one, widths are recovered from the bits; 11 bits for every six-width symbol,
and the bits of Stop and Start-Code-B. R33: POL starts at bar and is flipped once per element. -/
def Obligations.WidthsToBitsProperties : Prop :=
  (∀ ws : List Nat, (w2bBits ws).length = ws.sum ∧ (w2b ws).1 = (ws.length % 2 == 0)) ∧
  (∀ (x : Nat) (ws : List Nat), 1 ≤ x → (w2bBits (x :: ws)).head? = some true) ∧
  (∀ (ws : List Nat) (x : Nat), 1 ≤ x → (w2bBits (ws ++ [x])).getLast? = some (ws.length % 2 == 0)) ∧
  (∀ ws vs : List Nat, (∀ x ∈ ws, 1 ≤ x) → (∀ x ∈ vs, 1 ≤ x) → w2bBits ws = w2bBits vs → ws = vs) ∧
  (∀ v < 106, (w2bBits (patternRom.getD v [])).length = 11) ∧
  w2bBits (patternRom.getD 106 []) =
    [true, true, false, false, false, true, true, true, false, true, false, true, true] ∧
  w2bBits (patternRom.getD 104 []) =
    [true, true, false, true, false, false, true, false, false, false, false]

/-- R169, R170: the Code128-B pattern by index: quiet zones of ten, Start-Code-B at 10, data symbol i at 21 + 11i,
the check symbol at 21 + 11N, Stop at 32 + 11N, 11N + 55 bits in all. -/
def Obligations.C128PatternLayout : Prop :=
  ∀ (mw h : Px) (pay : List Character) (s : State), pay.length ≤ Config.nmax →
    ∃ r : Response, responseOf (exec (.encC128 mw h pay) s) = some r ∧
      r.bits.length = 11 * pay.length + 55 ∧
      r.bits.take 10 = rep false 10 ∧
      (r.bits.drop 10).take 11 = w2bBits (patternRom.getD 104 []) ∧
      (∀ i < pay.length,
        (r.bits.drop (21 + 11 * i)).take 11 = w2bBits (patternRom.getD ((Spec.symbols pay).getD i 0) [])) ∧
      (r.bits.drop (21 + 11 * pay.length)).take 11 = w2bBits (patternRom.getD r.checksum.toNat []) ∧
      (r.bits.drop (32 + 11 * pay.length)).take 13 = w2bBits (patternRom.getD 106 []) ∧
      r.bits.drop (45 + 11 * pay.length) = rep false 10

/-- R171 and R203's corner cases: a Code128-B render has ceil((11N + 55)/5) tiles, begins 0, 0, 26, 8 and ends 0,
0. -/
def Obligations.C128RenderEnds : Prop :=
  ∀ (mw h : Px) (pay : List Character) (s : State), pay.length ≤ Config.nmax → mw ≠ 0 → h ≠ 0 →
    ∃ (r : Response) (refs : List Nat), responseOf (exec (.renC128 mw h pay) s) = some r ∧
      refs = r.tiles.map (fun t => (Tile.ref t).toNat) ∧
      refs.length = (11 * pay.length + 55 + 4) / 5 ∧
      refs.take 4 = [0, 0, 26, 8] ∧ refs.drop (refs.length - 2) = [0, 0]

/-! ### The composer -/

/-- R180, R181, R31: PADDED, NG and GRP; every other register and the response are as before. -/
def Obligations.ComposerWritesGroups : Prop :=
  ∀ (p : List Bit) (w : Work), p.length ≤ 11 * Config.nmax + 55 →
    ∃ (ng : BitVec 32) (grp : List Group),
      group (pad p w) = { w with regs := { w.regs with padded := Spec.padded p, ng := ng, grp := grp } } ∧
      ng.toNat = (p.length + 4) / 5 ∧
      grp.map BitVec.toNat = (List.range ((p.length + 4) / 5)).map (Spec.groupValue p)

/-- R188, R185, R186: with positive dimensions COMPOSE answers CHECKSUM 0 and one descriptor per group. -/
def Obligations.ComposeAnswersTheTiles : Prop :=
  ∀ (mw h : Px) (p : List Bit) (s : State), p.length ≤ Config.nmax → mw ≠ 0 → h ≠ 0 →
    exec (.compose mw h p) s = .next (s.deliver (okResponse 0 [] [] (Spec.tiles p mw h)))

/-- R180, R189: the pad is 0 to 4 zeros at the end, up to the next multiple of 5. R187: the fragments of the tiles,
drawn left to right, are the padded pattern, whose beginning is the pattern. -/
def Obligations.TilesDrawThePaddedPattern : Prop :=
  (∀ p : List Bit, ∃ k ≤ 4, padRight p = p ++ rep false k ∧ (padRight p).length % 5 = 0 ∧
    (p.length % 5 = 0 → padRight p = p)) ∧
  (∀ (mw h : Px) (p : List Bit) (s : State), p.length ≤ Config.nmax → mw ≠ 0 → h ≠ 0 →
    ∃ r : Response, responseOf (exec (.compose mw h p) s) = some r ∧
      drawTiles r.tiles = .ok (padRight p) ∧ (padRight p).take p.length = p)

/-- R187: two patterns give the same references if and only if they are equal after padding. -/
def Obligations.ReferencesDeterminePaddedPattern : Prop :=
  ∀ (mw h : Px) (p q : List Bit) (s : State), p.length ≤ Config.nmax → q.length ≤ Config.nmax → mw ≠ 0 → h ≠ 0 →
    ∃ r u : Response, responseOf (exec (.compose mw h p) s) = some r ∧
      responseOf (exec (.compose mw h q) s) = some u ∧
      (r.tiles.map Tile.ref = u.tiles.map Tile.ref ↔ padRight p = padRight q)

/-- R190: the strip is NT * 5 * MW columns wide, module m of the padded pattern on columns m*MW to (m+1)*MW - 1, and
H high. -/
def Obligations.StripGeometry : Prop :=
  ∀ (mw h : Px) (p : List Bit) (s : State), p.length ≤ Config.nmax → mw ≠ 0 → h ≠ 0 →
    ∃ r : Response, responseOf (exec (.compose mw h p) s) = some r ∧
      pixelColumns r.tiles = .ok ((padRight p).flatMap fun m => rep m mw.toNat) ∧
      ((padRight p).flatMap fun m => rep m mw.toNat).length = r.nt.toNat * 5 * mw.toNat ∧
      ∀ t ∈ r.tiles, Tile.hpx t = h

/-- From R205: REN is ENC followed by COMPOSE of the bits ENC returns: same error, or the checksum and text of ENC
with the tiles of COMPOSE. ENC's own dimensions do not matter. For a Code128-B payload beyond 1525196 characters COMPOSE
runs here on a pattern longer than NMAX, which no request encodes: the model's reading (log 16). -/
def Obligations.RenderIsEncodeThenCompose : Prop :=
  ∀ (mw h mw' h' : Px) (pay : List Character) (s : State), pay.length ≤ Config.nmax → mw ≠ 0 → h ≠ 0 →
    (∃ e : Response, responseOf (exec (.encEan13 mw' h' pay) s) = some e ∧
      (e.status ≠ statusOk → responseOf (exec (.renEan13 mw h pay) s) = some (Draft.empty.respond e.status)) ∧
      (e.status = statusOk → ∃ c : Response, responseOf (exec (.compose mw h e.bits) s) = some c ∧
        responseOf (exec (.renEan13 mw h pay) s) = some (okResponse e.checksum.toNat e.text [] c.tiles))) ∧
    (∃ e c : Response, responseOf (exec (.encC128 mw' h' pay) s) = some e ∧
      responseOf (exec (.compose mw h e.bits) s) = some c ∧
      responseOf (exec (.renC128 mw h pay) s) = some (okResponse e.checksum.toNat e.text [] c.tiles))

/-! ### Tables, words, the driver -/

/-- R25, R183: the palette is complete, and fragment `g` is the five bits of `g`, most significant first. -/
def Obligations.TilePaletteIsComplete : Prop :=
  tileRom.length = 32 ∧
  ∀ g < 32, tileRom.getD g [] = [g / 16 % 2 == 1, g / 8 % 2 == 1, g / 4 % 2 == 1, g / 2 % 2 == 1, g % 2 == 1]

/-- R124, and the ten entries of R22 and R23: the relations among the EAN-13 tables. -/
def Obligations.EanTableRelations : Prop :=
  parityRom.length = 10 ∧ lRom.length = 10 ∧ gRom.length = 10 ∧ rRom.length = 10 ∧
  (∀ k < 10,
    rRom.getD k 0 = ~~~(lRom.getD k 0) ∧
    msbFirst (gRom.getD k 0) = (msbFirst (rRom.getD k 0)).reverse ∧
    (msbFirst (lRom.getD k 0)).head? = some false ∧ (msbFirst (lRom.getD k 0)).getLast? = some true ∧
    (msbFirst (lRom.getD k 0)).count true % 2 = 1 ∧
    (msbFirst (gRom.getD k 0)).head? = some false ∧ (msbFirst (gRom.getD k 0)).getLast? = some true ∧
    (msbFirst (gRom.getD k 0)).count true % 2 = 0 ∧
    (msbFirst (rRom.getD k 0)).head? = some true ∧ (msbFirst (rRom.getD k 0)).getLast? = some false ∧
    (msbFirst (rRom.getD k 0)).count true % 2 = 0 ∧
    (msbFirst (parityRom.getD k 0)).head? = some false ∧
    (k ≠ 0 → (msbFirst (parityRom.getD k 0)).count true = 3)) ∧
  (lRom ++ gRom ++ rRom).Nodup ∧ parityRom.Nodup

/-- R162: entries 0 to 105 have six widths of 1 to 4, sum 11 and an even bar sum; entry 106 has seven widths of 1 to
4 and sum 13; entries 0 to 105 are pairwise distinct; of the six-width lists over 1 to 4 with sum 11 and even bar sum
only 211133 and 233111 are unused, which leaves 108 of them in all. -/
def Obligations.PatternTableRelations : Prop :=
  patternRom.length = 107 ∧
  (∀ v < 106, (patternRom.getD v []).length = 6 ∧ (patternRom.getD v []).sum = 11) ∧
  (patternRom.getD 106 []).length = 7 ∧ (patternRom.getD 106 []).sum = 13 ∧
  (∀ ws ∈ patternRom, ∀ x ∈ ws, 1 ≤ x ∧ x ≤ 4) ∧
  (∀ ws ∈ patternRom.take 106, (ws.getD 0 0 + ws.getD 2 0 + ws.getD 4 0) % 2 = 0) ∧
  (patternRom.take 106).Nodup ∧
  ∀ a ∈ [1, 2, 3, 4], ∀ b ∈ [1, 2, 3, 4], ∀ c ∈ [1, 2, 3, 4], ∀ d ∈ [1, 2, 3, 4], ∀ e ∈ [1, 2, 3, 4], ∀ f ∈ [1, 2, 3, 4],
    a + b + c + d + e + f = 11 → (a + c + e) % 2 = 0 →
    ([a, b, c, d, e, f] ∈ patternRom.take 106 ↔ [a, b, c, d, e, f] ∉ [[2, 1, 1, 1, 3, 3], [2, 3, 3, 1, 1, 1]])

/-- R78, R186, R81: a descriptor word's fields, each where R78 puts it, for every group and dimensions, and
`5 * MW` without overflow. -/
def Obligations.DescriptorFieldsArePlaced : Prop :=
  ∀ (g : Group) (mw h : Px),
    (tileWord g (tileWidth mw) h).toNat = g.toNat + 5 * mw.toNat * 2 ^ 5 + h.toNat * 2 ^ 24 ∧
    Tile.ref (tileWord g (tileWidth mw) h) = g ∧
    (Tile.wpx (tileWord g (tileWidth mw) h)).toNat = 5 * mw.toNat ∧
    Tile.hpx (tileWord g (tileWidth mw) h) = h

/-- From R88 and R89: LCW's call forms denote the requests of the table: each decodes to the instruction it names.
That the two direct encoder calls have MW = H = 0 is the model's choice, after the textual form of R87 (log 17). -/
def Obligations.CallFormsDenoteTheirRequests : Prop :=
  ∀ (s fmt : List Character) (bs : List Bit) (w h : Px), s.length ≤ Config.nmax → bs.length ≤ Config.nmax →
    (∃ r, (CallForm.ean13Encode s).toRequest = some r ∧ decode r = .ok (.encEan13 0 0 s)) ∧
    (∃ r, (CallForm.code128Encode s).toRequest = some r ∧ decode r = .ok (.encC128 0 0 s)) ∧
    (∃ r, (CallForm.compose bs w h).toRequest = some r ∧ decode r = .ok (.compose w h bs)) ∧
    (∃ r, (CallForm.request ⟨s, codes "ean13", w, h⟩).toRequest = some r ∧ decode r = .ok (.renEan13 w h s)) ∧
    (∃ r, (CallForm.request ⟨s, codes "code128", w, h⟩).toRequest = some r ∧ decode r = .ok (.renC128 w h s)) ∧
    (fmt ≠ codes "ean13" → fmt ≠ codes "code128" →
      ∃ r, (CallForm.request ⟨s, fmt, w, h⟩).toRequest = some r ∧ decode r = .ok (.unsupRen8F 7 w h s))

/-- R87, R90: a string literal with no quote and no backslash assembles to its characters' codes. -/
def Obligations.StringLiteralsAssembleToTheirCodes : Prop :=
  ∀ s : List Character, s.length ≤ Config.nmax → (∀ c ∈ s, c.toNat ≠ 34 ∧ c.toNat ≠ 92) →
    ∃ r, assemble (codes "CHK.C128 \"" ++ s ++ codes "\"") = some r ∧ decode r = .ok (.chkC128 0 0 s)
end

