-- ==== Sys2Proof/Laws/State.lean ====
section
/-! SUPPORT. One lemma per field per update of State and of the work of an operation. -/

namespace Sys2Proof.Machine

variable (s : State) (r : Response) (q : Request) (e : ErrorResult)

@[simp] theorem State.deliver_req : (s.deliver r).req = none := rfl
@[simp] theorem State.deliver_rsp : (s.deliver r).rsp = some r := rfl
@[simp] theorem State.deliver_resetIn : (s.deliver r).resetIn = s.resetIn := rfl
@[simp] theorem State.deliver_regs : (s.deliver r).regs = Config.freeRegisters s.freeIndex := rfl
@[simp] theorem State.deliver_freeIndex : (s.deliver r).freeIndex = s.freeIndex + 1 := rfl

@[simp] theorem State.raiseError_req : (s.raiseError e).req = none := rfl
@[simp] theorem State.raiseError_rsp : (s.raiseError e).rsp = some e.response := rfl
@[simp] theorem State.raiseError_resetIn : (s.raiseError e).resetIn = s.resetIn := rfl

@[simp] theorem State.afterReset_req : s.afterReset.req = none := rfl
@[simp] theorem State.afterReset_rsp : s.afterReset.rsp = none := rfl
@[simp] theorem State.afterReset_resetIn : s.afterReset.resetIn = false := rfl
@[simp] theorem State.afterReset_freeIndex : s.afterReset.freeIndex = s.freeIndex + 1 := rfl

@[simp] theorem State.assertReset_req : s.assertReset.req = s.req := rfl
@[simp] theorem State.assertReset_rsp : s.assertReset.rsp = s.rsp := rfl
@[simp] theorem State.assertReset_resetIn : s.assertReset.resetIn = true := rfl
@[simp] theorem State.assertReset_regs : s.assertReset.regs = s.regs := rfl

@[simp] theorem State.withFetchWord_resetIn (nbits w : Nat) : (s.withFetchWord nbits w).resetIn = false := rfl
@[simp] theorem State.withFetchWord_req (nbits w : Nat) :
    (s.withFetchWord nbits w).req = some (requestOfBits (w % 2 ^ nbits)) := rfl
@[simp] theorem State.withFetchWord_rsp (nbits w : Nat) : (s.withFetchWord nbits w).rsp = s.rsp := rfl
@[simp] theorem State.withFetchWord_regs (nbits w : Nat) : (s.withFetchWord nbits w).regs = s.regs := rfl

/-- When the host may present a request, and what that leaves. -/
theorem State.present_eq_some {s t : State} (h : s.present q = some t) : s.req = none ∧ t = { s with req := some q } := by
  unfold State.present State.idle at h
  split at h
  · exact ⟨Option.isNone_iff_eq_none.mp ‹_›, by simpa using h.symm⟩
  · cases h

@[simp] theorem State.begin_regs : s.begin.regs = s.regs := rfl
@[simp] theorem State.begin_out : s.begin.out = Draft.empty := rfl

variable (w : Work) (v : BitVec 7) (cs : List Character) (bs : List Bit) (ts : List TileWord)

@[simp] theorem Work.setChecksum_regs : (w.setChecksum v).regs = w.regs := rfl
@[simp] theorem Work.setChecksum_checksum : (w.setChecksum v).out.checksum = v := rfl
@[simp] theorem Work.setChecksum_text : (w.setChecksum v).out.text = w.out.text := rfl
@[simp] theorem Work.setChecksum_bits : (w.setChecksum v).out.bits = w.out.bits := rfl
@[simp] theorem Work.setChecksum_tiles : (w.setChecksum v).out.tiles = w.out.tiles := rfl

@[simp] theorem Work.emitText_regs : (w.emitText cs).regs = w.regs := rfl
@[simp] theorem Work.emitText_checksum : (w.emitText cs).out.checksum = w.out.checksum := rfl
@[simp] theorem Work.emitText_text : (w.emitText cs).out.text = w.out.text ++ cs := rfl
@[simp] theorem Work.emitText_bits : (w.emitText cs).out.bits = w.out.bits := rfl
@[simp] theorem Work.emitText_tiles : (w.emitText cs).out.tiles = w.out.tiles := rfl

@[simp] theorem Work.emitBits_regs : (w.emitBits bs).regs = w.regs := rfl
@[simp] theorem Work.emitBits_checksum : (w.emitBits bs).out.checksum = w.out.checksum := rfl
@[simp] theorem Work.emitBits_text : (w.emitBits bs).out.text = w.out.text := rfl
@[simp] theorem Work.emitBits_bits : (w.emitBits bs).out.bits = w.out.bits ++ bs := rfl
@[simp] theorem Work.emitBits_tiles : (w.emitBits bs).out.tiles = w.out.tiles := rfl

@[simp] theorem Work.emitTiles_regs : (w.emitTiles ts).regs = w.regs := rfl
@[simp] theorem Work.emitTiles_checksum : (w.emitTiles ts).out.checksum = w.out.checksum := rfl
@[simp] theorem Work.emitTiles_text : (w.emitTiles ts).out.text = w.out.text := rfl
@[simp] theorem Work.emitTiles_bits : (w.emitTiles ts).out.bits = w.out.bits := rfl
@[simp] theorem Work.emitTiles_tiles : (w.emitTiles ts).out.tiles = w.out.tiles ++ ts := rfl

end Sys2Proof.Machine
end

