-- ==== Sys2Proof/Laws/Ops.lean ====
section
/-! SUPPORT. What each shared operation can do, said once. -/

namespace Sys2Proof.Machine

/-- A read within a table's range answers that entry. -/
theorem romRead_of_lt {α : Type} {table : List α} {i : Nat} (h : i < table.length) :
    romRead table i = .ok table[i] := by
  simp [romRead, List.getElem?_eq_getElem h]

/-- Everything a table read can answer. -/
theorem romRead_cases {α : Type} (table : List α) (i : Nat) :
    (∃ h : i < table.length, romRead table i = .ok table[i]) ∨
    (table.length ≤ i ∧ romRead table i = .error (.fault .romIndex)) := by
  rcases Nat.lt_or_ge i table.length with h | h
  · exact .inl ⟨h, romRead_of_lt h⟩
  · exact .inr ⟨h, by simp [romRead, List.getElem?_eq_none h]⟩

/-- How an operation that goes on has ended: with its response, or with an error's. -/
theorem State.finish_next {s t : State} {o : Except Stop Work} (h : s.finish o = .next t) :
    (∃ w, o = .ok w ∧ t = s.deliver (w.out.respond statusOk)) ∨
    (∃ e, o = .error (.raise e) ∧ t = s.raiseError e) := by
  cases o with
  | ok w => exact .inl ⟨w, rfl, by simpa [State.finish] using h.symm⟩
  | error x =>
    cases x with
    | raise e => exact .inr ⟨e, rfl, by simpa [State.finish] using h.symm⟩
    | fault f => cases h

/-- No end of an operation is a refusal. -/
theorem State.finish_ne_refused {s : State} {o : Except Stop Work} {q : Refusal} : s.finish o ≠ .refused q := by
  rcases o with (_ | _) | _ <;> simp [State.finish]

/-- An operation ends in a fault only where its work does. -/
theorem State.finish_fault {s : State} {o : Except Stop Work} {f : Fault} (h : s.finish o = .fault f) :
    o = .error (.fault f) := by
  rcases o with (_ | g) | _
  · simp [State.finish] at h
  · simpa [State.finish] using h
  · simp [State.finish] at h

/-- Within the contract the operation runs. -/
theorem requireDimensions_of_pos {mw h : Px} (hm : mw ≠ 0) (hh : h ≠ 0)
    (k : Host.Outcome State Fault Refusal) : requireDimensions mw h k = k :=
  if_neg (not_or.mpr ⟨hm, hh⟩)

/-- Outside it the request is refused. -/
theorem requireDimensions_of_zero {mw h : Px} (hz : mw = 0 ∨ h = 0)
    (k : Host.Outcome State Fault Refusal) : requireDimensions mw h k = .refused .zeroDimension :=
  if_pos hz

/-! ### The fields of a packed response (R76) -/

theorem Draft.getLsbD_respond_rsp0 (c : BitVec 2) (d : Draft) (i : Nat) :
    (d.respond c).rsp0.getLsbD i =
      if i < 2 then c.getLsbD i else if i < 9 then d.checksum.getLsbD (i - 2) else if i < 32 then false
      else if i < 56 then (BitVec.ofNat 24 d.text.length).getLsbD (i - 32) else false := by
  show (0#8 ++ BitVec.ofNat 24 d.text.length ++ 0#23 ++ d.checksum ++ c : BitVec (8 + 24 + 23 + 7 + 2)).getLsbD i = _
  simp only [BitVec.getLsbD_append, BitVec.getLsbD_zero]
  have e1 : i - 2 - 7 - 23 = i - 32 := by omega
  have e2 : (i - 2 < 7) ↔ i < 9 := by omega
  have e3 : (i - 2 - 7 < 23) ↔ i < 32 := by omega
  have e4 : (i - 32 < 24) ↔ i < 56 := by omega
  simp only [e1, e2, e3, e4]

theorem Draft.getLsbD_respond_rsp1 (c : BitVec 2) (d : Draft) (i : Nat) :
    (d.respond c).rsp1.getLsbD i =
      if i < 32 then (BitVec.ofNat 32 d.bits.length).getLsbD i
      else (BitVec.ofNat 32 d.tiles.length).getLsbD (i - 32) := by
  show (BitVec.ofNat 32 d.tiles.length ++ BitVec.ofNat 32 d.bits.length : BitVec (32 + 32)).getLsbD i = _
  simp only [BitVec.getLsbD_append]

theorem Draft.respond_status (c : BitVec 2) (d : Draft) : (d.respond c).status = c := by
  apply BitVec.eq_of_getLsbD_eq
  intro i hi
  simp only [Response.status, BitVec.getLsbD_extractLsb', Draft.getLsbD_respond_rsp0]
  simp [hi]

theorem Draft.respond_checksum (c : BitVec 2) (d : Draft) : (d.respond c).checksum = d.checksum := by
  apply BitVec.eq_of_getLsbD_eq
  intro i hi
  have h0 : ¬ 2 + i < 2 := by omega
  have h1 : 2 + i < 9 := by omega
  simp only [Response.checksum, BitVec.getLsbD_extractLsb', Draft.getLsbD_respond_rsp0, h0, h1]
  simp [hi]

theorem Draft.respond_tlen (c : BitVec 2) (d : Draft) :
    (d.respond c).tlen = BitVec.ofNat 24 d.text.length := by
  apply BitVec.eq_of_getLsbD_eq
  intro i hi
  have h1 : ¬ 32 + i < 2 := by omega
  have h2 : ¬ 32 + i < 9 := by omega
  have h3 : 32 + i < 56 := by omega
  simp only [Response.tlen, BitVec.getLsbD_extractLsb', Draft.getLsbD_respond_rsp0]
  simp [hi, h1, h2, h3]

theorem Draft.respond_blen (c : BitVec 2) (d : Draft) :
    (d.respond c).blen = BitVec.ofNat 32 d.bits.length := by
  apply BitVec.eq_of_getLsbD_eq
  intro i hi
  simp only [Response.blen, BitVec.getLsbD_extractLsb', Draft.getLsbD_respond_rsp1]
  simp [hi]

theorem Draft.respond_nt (c : BitVec 2) (d : Draft) :
    (d.respond c).nt = BitVec.ofNat 32 d.tiles.length := by
  apply BitVec.eq_of_getLsbD_eq
  intro i hi
  simp only [Response.nt, BitVec.getLsbD_extractLsb', Draft.getLsbD_respond_rsp1]
  simp [hi]

/-- The bits of RSP0 that R76 calls zero are zero. -/
theorem Draft.respond_zero_bits (c : BitVec 2) (d : Draft) :
    (d.respond c).rsp0.extractLsb' 9 23 = 0 ∧ (d.respond c).rsp0.extractLsb' 56 8 = 0 := by
  constructor <;> apply BitVec.eq_of_getLsbD_eq <;> intro i hi <;>
    simp only [BitVec.getLsbD_extractLsb', Draft.getLsbD_respond_rsp0]
  · have h1 : ¬ 9 + i < 2 := by omega
    have h2 : 9 + i < 32 := by omega
    simp [h1, h2]
  · have h1 : ¬ 56 + i < 2 := by omega
    have h2 : ¬ 56 + i < 9 := by omega
    have h3 : ¬ 56 + i < 32 := by omega
    simp [h1, h2, h3]

@[simp] theorem Draft.respond_text (c : BitVec 2) (d : Draft) : (d.respond c).text = d.text := rfl
@[simp] theorem Draft.respond_bits (c : BitVec 2) (d : Draft) : (d.respond c).bits = d.bits := rfl
@[simp] theorem Draft.respond_tiles (c : BitVec 2) (d : Draft) : (d.respond c).tiles = d.tiles := rfl

/-- A descriptor word bit by bit (R78). -/
theorem getLsbD_tileWord (g : Group) (x : BitVec 19) (y : Px) (i : Nat) :
    (tileWord g x y).getLsbD i =
      if i < 5 then g.getLsbD i else if i < 24 then x.getLsbD (i - 5) else y.getLsbD (i - 24) := by
  show (y ++ x ++ g : BitVec (16 + 19 + 5)).getLsbD i = _
  simp only [BitVec.getLsbD_append]
  have e1 : i - 5 - 19 = i - 24 := by omega
  have e2 : (i - 5 < 19) ↔ i < 24 := by omega
  simp only [e1, e2]

end Sys2Proof.Machine
end

