-- ==== Sys2Proof/Laws/Code128.lean ====
section
/-! SUPPORT. What the Code128-B rules compute, one lemma per function, in terms of LCW's formulas (Spec). -/

namespace Sys2Proof.Machine

/-- The symbol value of a character (R142). -/
theorem symbolValue_toNat (c : Character) :
    (symbolValue c).toNat = if 32 ≤ c.toNat ∧ c.toNat ≤ 127 then c.toNat - 32 else 63 - 32 := by
  simp only [symbolValue, BitVec.toNat_ofNat]
  by_cases h : 32 ≤ c.toNat ∧ c.toNat ≤ 127
  · rw [if_neg (by omega), if_pos h]; omega
  · rw [if_pos (by omega), if_neg h]

/-- Symbol values are 0 to 95 (R146). -/
theorem symbolValue_le (c : Character) : (symbolValue c).toNat ≤ 95 := by
  rw [symbolValue_toNat]; split <;> omega

/-- SYM holds LCW's symbol values (R142). -/
theorem symbols_toNat (pay : List Character) : (pay.map symbolValue).map BitVec.toNat = Spec.symbols pay := by
  simp [Spec.symbols, symbolValue_toNat]

/-- A bound on the weighted sum, enough for ACCW = 64 (R12, R146). -/
theorem positionSum_le (i : Nat) (vs : List Nat) (h : ∀ v ∈ vs, v ≤ 95) :
    Spec.positionSum i vs ≤ 95 * (vs.length * (i + vs.length)) := by
  induction vs generalizing i with
  | nil => simp [Spec.positionSum]
  | cons v vs ih =>
    have h1 := ih (i + 1) (fun v hm => h v (by simp [hm]))
    have h2 : v * i ≤ 95 * i := Nat.mul_le_mul_right _ (h v (by simp))
    simp only [Spec.positionSum, List.length_cons]
    have : 95 * i + 95 * (vs.length * (i + 1 + vs.length)) ≤ 95 * ((vs.length + 1) * (i + (vs.length + 1))) := by nlinarith
    omega

/-- The weighting loop writes only POS and ACC, and wraps neither (R12, R144). -/
theorem weigh_exact (k : Nat) (vs : List SymbolValue) (r : Registers)
    (hk : k + vs.length ≤ Config.nmax)
    (hacc : r.acc.toNat + Spec.positionSum (k + 1) (vs.map BitVec.toNat) < 2 ^ 64) :
    ∃ (pos : BitVec 25) (acc : BitVec 64), weigh k vs r = { r with pos := pos, acc := acc } ∧
      acc.toNat = r.acc.toNat + Spec.positionSum (k + 1) (vs.map BitVec.toNat) ∧
      (pos.toNat = if vs = [] then r.pos.toNat else k + vs.length) := by
  induction vs generalizing k r with
  | nil => exact ⟨r.pos, r.acc, rfl, by simp [Spec.positionSum], by simp⟩
  | cons v vs ih =>
    simp only [List.length_cons] at hk
    have hpos : (BitVec.ofNat 25 (k + 1)).toNat = k + 1 := by
      rw [BitVec.toNat_ofNat]; unfold Config.nmax at hk; omega
    simp only [List.map_cons, Spec.positionSum] at hacc ⊢
    have hacc1 : (BitVec.ofNat 64 (r.acc.toNat + v.toNat * (k + 1))).toNat = r.acc.toNat + v.toNat * (k + 1) := by
      rw [BitVec.toNat_ofNat]; apply Nat.mod_eq_of_lt; omega
    obtain ⟨pos, acc, h1, h2, h3⟩ := ih (k + 1)
      { r with pos := BitVec.ofNat 25 (k + 1), acc := BitVec.ofNat 64 (r.acc.toNat + v.toNat * (k + 1)) }
      (by omega) (by simp only [hacc1]; omega)
    refine ⟨pos, acc, ?_, ?_, ?_⟩
    · simp only [weigh, hpos]; exact h1
    · rw [h2, hacc1]; omega
    · rw [h3, if_neg (List.cons_ne_nil v vs)]
      by_cases hv : vs = []
      · subst hv; rw [if_pos rfl]; exact hpos
      · rw [if_neg hv, List.length_cons]; omega

/-- The walk appends the elements' modules (R163). -/
theorem w2bFrom_snd (ws : List Nat) (pol : Bit) (out : List Bit) :
    (w2bFrom ws pol out).2 = out ++ Spec.elements pol ws := by
  induction ws generalizing pol out with
  | nil => simp [w2bFrom, Spec.elements]
  | cons x ws ih => simp [w2bFrom, Spec.elements, ih]

/-- Widths to bits is the alternation of elements (R163). -/
theorem w2bBits_eq (ws : List Nat) : w2bBits ws = Spec.elements true ws := by
  simp [w2bBits, w2b, w2bFrom_snd]

/-- Symbols within the table are drawn in order; of the registers only POL changes (R163, R167). -/
theorem drawSymbols_ok (vs : List Nat) (r : Registers) (h : ∀ v ∈ vs, v < 107) :
    ∃ pol, drawSymbols vs r = .ok ({ r with pol := pol }, vs.flatMap Spec.symbol) := by
  induction vs generalizing r with
  | nil => exact ⟨r.pol, rfl⟩
  | cons v vs ih =>
    have hv : v < patternRom.length := h v (by simp)
    obtain ⟨pol, hp⟩ := ih { r with pol := (w2b patternRom[v]).1 } (fun x hm => h x (by simp [hm]))
    refine ⟨pol, ?_⟩
    rw [drawSymbols, romRead_of_lt hv]
    show (drawSymbols vs { r with pol := (w2b patternRom[v]).1 } >>= fun x => pure (x.1, (w2b patternRom[v]).2 ++ x.2)) = _
    rw [hp]
    have : (w2b patternRom[v]).2 = Spec.symbol v := by
      rw [Spec.symbol, List.getD_eq_getElem _ _ hv]; exact w2bBits_eq _
    simp [bind, Except.bind, pure, Except.pure, this]

/-- The whole mapper and checksum unit (R148). -/
theorem c128Checksum_ok {pay : List Character} (hn : pay.length ≤ Config.nmax) (w : Work) :
    (c128Checksum pay w).out = { w.out with checksum := BitVec.ofNat 7 (Spec.c128Check pay), text := w.out.text ++ pay } ∧
    (c128Checksum pay w).regs.n.toNat = pay.length ∧ (c128Checksum pay w).regs.sym = pay.map symbolValue ∧
    (c128Checksum pay w).regs.chk103.toNat = Spec.c128Check pay := by
  have hN : (BitVec.ofNat 24 pay.length).toNat = pay.length := by
    rw [BitVec.toNat_ofNat]; unfold Config.nmax at hn; omega
  have htake : pay.take (BitVec.ofNat 24 pay.length).toNat = pay := by rw [hN]; exact List.take_length
  have hst : (pay.map symbolValue).take (BitVec.ofNat 24 pay.length).toNat = pay.map symbolValue := by
    rw [hN, ← List.length_map (f := symbolValue)]; exact List.take_length
  have h95 : ∀ v ∈ Spec.symbols pay, v ≤ 95 := by
    rw [← symbols_toNat]; intro v hm
    simp only [List.map_map, List.mem_map, Function.comp] at hm
    obtain ⟨c, -, rfl⟩ := hm
    exact symbolValue_le c
  have hps := positionSum_le 1 _ h95
  have hl : (Spec.symbols pay).length = pay.length := by simp [Spec.symbols]
  have hb : 95 * (pay.length * (1 + pay.length)) ≤ 95 * (16777215 * 16777216) := by
    unfold Config.nmax at hn
    exact Nat.mul_le_mul_left _ (Nat.mul_le_mul hn (by omega))
  obtain ⟨pos, acc, h1, h2, -⟩ := weigh_exact 0 (pay.map symbolValue)
    { w.regs with n := BitVec.ofNat 24 pay.length, sym := pay.map symbolValue, acc := 104 }
    (by simpa using hn) (by
      rw [symbols_toNat]; rw [hl] at hps
      show 104 + Spec.positionSum 1 (Spec.symbols pay) < _
      omega)
  have hW : weightedSum (mapSymbols pay (countCharacters pay w)) =
      { w with regs := { w.regs with n := BitVec.ofNat 24 pay.length, sym := pay.map symbolValue, pos := pos, acc := acc } } := by
    simp only [weightedSum, mapSymbols, countCharacters, htake, hst, h1]
  have hacc : acc.toNat = Spec.c128Sum pay := by
    rw [h2, symbols_toNat]; rfl
  have hchk : BitVec.ofNat 7 (acc.toNat % 103) = BitVec.ofNat 7 (Spec.c128Check pay) := by rw [hacc]; rfl
  unfold c128Checksum
  rw [hW]
  refine ⟨?_, hN, rfl, ?_⟩
  · simp only [c128Text, checkSymbol, Work.emitText, Work.setChecksum, hchk, htake]
  · simp only [c128Text, checkSymbol, Work.emitText, Work.setChecksum, hchk, BitVec.toNat_ofNat]
    apply Nat.mod_eq_of_lt
    have : Spec.c128Check pay < 103 := Nat.mod_lt _ (by omega)
    omega

/-- From a payload to the Code128-B pattern (R168, R203). -/
theorem c128Pattern_ok {pay : List Character} (hn : pay.length ≤ Config.nmax) (w : Work) :
    ∃ v, c128Pattern pay w = .ok (v, Spec.c128Bits pay) ∧
      v.out = { w.out with checksum := BitVec.ofNat 7 (Spec.c128Check pay), text := w.out.text ++ pay } := by
  obtain ⟨h1, h2, h3, h4⟩ := c128Checksum_ok hn w
  have hd : ((c128Checksum pay w).regs.sym.take (c128Checksum pay w).regs.n.toNat).map (·.toNat) = Spec.symbols pay := by
    rw [h2, h3, ← List.length_map (f := symbolValue), List.take_length, symbols_toNat]
  have hv : ∀ v ∈ [startCodeB] ++ Spec.symbols pay ++ [Spec.c128Check pay] ++ [stopCode], v < 107 := by
    have hc : Spec.c128Check pay < 103 := Nat.mod_lt _ (by omega)
    have h95 : ∀ v ∈ Spec.symbols pay, v ≤ 95 := by
      rw [← symbols_toNat]; intro v hm
      simp only [List.map_map, List.mem_map, Function.comp] at hm
      obtain ⟨c, -, rfl⟩ := hm
      exact symbolValue_le c
    intro v hm
    simp only [List.mem_append, List.mem_singleton] at hm
    rcases hm with ((rfl | hm) | rfl) | rfl
    · decide
    · have := h95 v hm; omega
    · omega
    · decide
  obtain ⟨pol, hp⟩ := drawSymbols_ok _ (c128Checksum pay w).regs hv
  refine ⟨{ c128Checksum pay w with regs := { (c128Checksum pay w).regs with pol := pol } }, ?_, h1⟩
  unfold c128Pattern assembleC128
  simp only [hd, h4, hp, bind, Except.bind, pure, Except.pure]
  simp only [Spec.c128Bits, startCodeB, stopCode, List.flatMap_append, List.flatMap_cons, List.flatMap_nil,
    List.append_nil, List.append_assoc]

end Sys2Proof.Machine
end

