-- ==== Sys2Proof/Laws/Composer.lean ====
section
/-! SUPPORT. What the composer's rules compute, one lemma per function, in terms of LCW's formulas (Spec). -/

namespace Sys2Proof.Machine

/-- The pad (R180). -/
theorem padRight_eq (p : List Bit) : padRight p = Spec.padded p := by
  unfold padRight Spec.padded
  simp only
  split
  · rename_i h; simp [h]
  · have : p.length % 5 < 5 := Nat.mod_lt _ (by omega)
    congr 2; omega

/-- The padded length (R180, R181). -/
theorem padRight_length (p : List Bit) : (padRight p).length = 5 * Spec.tileCount p.length := by
  rw [padRight_eq, Spec.padded, List.length_append, List.length_replicate, Spec.tileCount]
  omega

theorem groupsOf_length (p : List Bit) : (groupsOf p).length = p.length / 5 := by
  induction p using groupsOf.induct with
  | case1 b0 b1 b2 b3 b4 rest ih => simp only [groupsOf, List.length_cons, ih]; omega
  | case2 p h =>
    unfold groupsOf
    split
    · exact absurd rfl (h _ _ _ _ _ _)
    · have : p.length < 5 := by
        rcases p with _ | ⟨a, _ | ⟨b, _ | ⟨c, _ | ⟨d, _ | ⟨e, f⟩⟩⟩⟩⟩
        all_goals first
          | exact absurd rfl (h _ _ _ _ _ _)
          | (simp only [List.length_cons, List.length_nil]; omega)
      simp; omega

theorem groupValue_succ (b0 b1 b2 b3 b4 : Bit) (p : List Bit) (k : Nat) :
    Spec.groupValue (b0 :: b1 :: b2 :: b3 :: b4 :: p) (k + 1) = Spec.groupValue p k := by
  simp [Spec.groupValue, Nat.mul_add]

/-- The group values (R181). -/
theorem groupsOf_toNat (p : List Bit) :
    (groupsOf p).map BitVec.toNat = (List.range (p.length / 5)).map (Spec.groupValue p) := by
  induction p using groupsOf.induct with
  | case1 b0 b1 b2 b3 b4 rest ih =>
    have e : (b0 :: b1 :: b2 :: b3 :: b4 :: rest).length / 5 = rest.length / 5 + 1 := by
      simp only [List.length_cons]; omega
    rw [e, List.range_succ_eq_map, groupsOf, List.map_cons, List.map_cons, ih, List.map_map]
    have e0 : (BitVec.ofNat 5 (16 * b0.toNat + 8 * b1.toNat + 4 * b2.toNat + 2 * b3.toNat + b4.toNat)).toNat =
        Spec.groupValue (b0 :: b1 :: b2 :: b3 :: b4 :: rest) 0 := by
      cases b0 <;> cases b1 <;> cases b2 <;> cases b3 <;> cases b4 <;> rfl
    rw [e0]
    exact congrArg _ (List.map_congr_left fun k _ => (groupValue_succ b0 b1 b2 b3 b4 rest k).symm)
  | case2 p h =>
    have hl := groupsOf_length p
    have : groupsOf p = [] := by
      unfold groupsOf
      split
      · exact absurd rfl (h _ _ _ _ _ _)
      · rfl
    rw [this] at hl ⊢
    simp only [List.length_nil] at hl
    rw [← hl]; rfl

/-- Padding does not change a group's value: a missing module counts as 0. -/
theorem groupValue_padded (p : List Bit) (k : Nat) : Spec.groupValue (Spec.padded p) k = Spec.groupValue p k := by
  have h : ∀ i, (Spec.padded p).getD i false = p.getD i false := by
    intro i
    unfold Spec.padded
    by_cases hi : i < p.length
    · simp [List.getElem?_append_left hi]
    · have hp : p[i]? = none := List.getElem?_eq_none (by omega)
      simp only [List.getD_eq_getElem?_getD, List.getElem?_append_right (Nat.le_of_not_lt hi), hp, List.getElem?_replicate]
      split <;> rfl
  simp only [Spec.groupValue, h]

/-- A descriptor as a number (R78); WPX does not overflow (R81). -/
theorem tileWord_toNat (g : Group) (mw h : Px) :
    (tileWord g (tileWidth mw) h).toNat = g.toNat + 5 * mw.toNat * 2 ^ 5 + h.toNat * 2 ^ 24 := by
  have h1 : (tileWidth mw).toNat = 5 * mw.toNat := by
    simp only [tileWidth, BitVec.toNat_ofNat]; omega
  show (h ++ tileWidth mw ++ g : BitVec (16 + 19 + 5)).toNat = _
  have hg := g.isLt
  have hm := mw.isLt
  rw [BitVec.toNat_append, BitVec.toNat_append, h1, ← Nat.shiftLeft_add_eq_or_of_lt hg,
    ← Nat.shiftLeft_add_eq_or_of_lt (by omega : 5 * mw.toNat < 2 ^ 19), Nat.shiftLeft_eq, Nat.shiftLeft_eq]
  omega

theorem tileWord_eq (g : Group) (mw h : Px) : tileWord g (tileWidth mw) h = Spec.descriptor g.toNat mw.toNat h.toNat := by
  apply BitVec.eq_of_toNat_eq
  rw [tileWord_toNat, Spec.descriptor, BitVec.toNat_ofNat]
  symm; apply Nat.mod_eq_of_lt
  have := g.isLt; have := mw.isLt; have := h.isLt
  omega

/-- The composer on a pattern (R188): it appends the pattern's descriptors to TILES. -/
theorem composePattern_out {p : List Bit} (hn : p.length ≤ 11 * Config.nmax + 55) (mw h : Px) (w : Work) :
    (composePattern p mw h w).out = { w.out with tiles := w.out.tiles ++ Spec.tiles p mw h } := by
  have hng : (BitVec.ofNat 32 ((padRight p).length / 5)).toNat = (groupsOf (padRight p)).length := by
    rw [BitVec.toNat_ofNat, groupsOf_length, padRight_length]
    unfold Spec.tileCount
    unfold Config.nmax at hn
    omega
  simp only [composePattern, emitDescriptors, group, pad, Work.emitTiles, hng, List.take_length]
  congr 2
  have e : ∀ g : Group, tileWord g (tileWidth mw) h = Spec.descriptor g.toNat mw.toNat h.toNat := fun g => tileWord_eq g mw h
  simp only [e]
  have := groupsOf_toNat (padRight p)
  rw [padRight_length, Nat.mul_div_cancel_left _ (by omega)] at this
  rw [show (groupsOf (padRight p)).map (fun g => Spec.descriptor g.toNat mw.toNat h.toNat) = ((groupsOf (padRight p)).map BitVec.toNat).map (fun g => Spec.descriptor g mw.toNat h.toNat) by simp, this]
  simp [Spec.tiles, padRight_eq, groupValue_padded]

end Sys2Proof.Machine
end

