-- ==== Sys2Proof/Laws/Decode.lean ====
section
/-! SUPPORT. The header word bit by bit, and what a decoded request is. -/

namespace Sys2Proof

/-- The header word bit by bit (R71). -/
theorem Header.getLsbD_pack (op : BitVec 8) (mw h : Px) (len : BitVec 24) (i : Nat) :
    (Header.pack op mw h len).getLsbD i =
      if i < 8 then op.getLsbD i else if i < 24 then mw.getLsbD (i - 8)
      else if i < 40 then h.getLsbD (i - 24) else len.getLsbD (i - 40) := by
  show (len ++ h ++ mw ++ op : BitVec (24 + 16 + 16 + 8)).getLsbD i = _
  simp only [BitVec.getLsbD_append]
  have e1 : i - 8 - 16 = i - 24 := by omega
  have e2 : i - 24 - 16 = i - 40 := by omega
  have e3 : (i - 8 < 16) ↔ i < 24 := by omega
  have e4 : (i - 24 < 16) ↔ i < 40 := by omega
  simp only [e1, e2, e3, e4]

theorem Header.op_pack (op : BitVec 8) (mw h : Px) (len : BitVec 24) :
    Header.op (Header.pack op mw h len) = op := by
  apply BitVec.eq_of_getLsbD_eq
  intro i hi
  simp [Header.op, Header.getLsbD_pack, hi]

theorem Header.mw_pack (op : BitVec 8) (mw h : Px) (len : BitVec 24) :
    Header.mw (Header.pack op mw h len) = mw := by
  apply BitVec.eq_of_getLsbD_eq
  intro i hi
  have h2 : 8 + i < 24 := by omega
  simp [Header.mw, Header.getLsbD_pack, hi, h2]

theorem Header.h_pack (op : BitVec 8) (mw h : Px) (len : BitVec 24) :
    Header.h (Header.pack op mw h len) = h := by
  apply BitVec.eq_of_getLsbD_eq
  intro i hi
  have h1 : ¬ (24 + i < 8) := by omega
  have h2 : 24 + i < 40 := by omega
  simp [Header.h, Header.getLsbD_pack, hi, h1, h2]

theorem Header.len_pack (op : BitVec 8) (mw h : Px) (len : BitVec 24) :
    Header.len (Header.pack op mw h len) = len := by
  apply BitVec.eq_of_getLsbD_eq
  intro i hi
  have h1 : ¬ (40 + i < 8) := by omega
  have h2 : ¬ (40 + i < 24) := by omega
  simp [Header.len, Header.getLsbD_pack, hi, h1, h2]

/-- A header word is its fields. -/
theorem Header.pack_fields (hdr : BitVec 64) :
    Header.pack (Header.op hdr) (Header.mw hdr) (Header.h hdr) (Header.len hdr) = hdr := by
  apply BitVec.eq_of_getLsbD_eq
  intro i hi
  simp only [Header.getLsbD_pack, Header.len, Header.op, Header.mw, Header.h, BitVec.getLsbD_extractLsb']
  by_cases h1 : i < 8
  · simp [h1]
  · by_cases h2 : i < 24
    · have : i - 8 < 16 := by omega
      have h3 : 8 + (i - 8) = i := by omega
      simp [h1, h2, this, h3]
    · by_cases h3 : i < 40
      · have : i - 24 < 16 := by omega
        have h4 : 24 + (i - 24) = i := by omega
        simp [h1, h2, h3, h4, this]
      · have : i - 40 < 24 := by omega
        have h4 : 40 + (i - 40) = i := by omega
        simp [h1, h2, h3, this, h4]

/-- What a request that decodes is like: LEN counts its elements and OP selects the instruction. -/
theorem decode_eq_ok {r : Request} {i : Instr} (h : decode r = .ok i) :
    r.pay.length = (Header.len r.hdr).toNat ∧
    decodeOp (Header.op r.hdr) (Header.mw r.hdr) (Header.h r.hdr) r.pay = .ok i := by
  unfold decode at h
  split at h
  · exact ⟨‹_›, h⟩
  · cases h

/-- The payload of a request that decodes has at most NMAX elements. -/
theorem decode_length_le {r : Request} {i : Instr} (h : decode r = .ok i) : r.pay.length ≤ Config.nmax := by
  have h1 := (decode_eq_ok h).1
  have h2 := (Header.len r.hdr).isLt
  unfold Config.nmax
  omega

end Sys2Proof
end

