-- ==== Sys2Proof/Laws/Ean13.lean ====
section
/-! SUPPORT. What the EAN-13 rules compute, one lemma per function, in terms of LCW's formulas (Spec). -/

namespace Sys2Proof.Machine

/-- The digit test (R101). -/
theorem isDigit_iff (c : Character) : isDigit c = true ↔ 48 ≤ c.toNat ∧ c.toNat ≤ 57 := by
  simp [isDigit]

/-- The value of a digit character (R101). -/
theorem digitValue_toNat {c : Character} (h : isDigit c = true) : (digitValue c).toNat = c.toNat - 48 := by
  have := (isDigit_iff c).mp h
  simp only [digitValue, BitVec.toNat_ofNat]
  omega

/-- D holds the digit values of the digit characters, in order (R102). -/
theorem digitsOf_toNat (pay : List Character) : (digitsOf pay).map BitVec.toNat = Spec.digits pay := by
  induction pay with
  | nil => rfl
  | cons c cs ih =>
    have e : Spec.digits (c :: cs) = if 48 ≤ c.toNat ∧ c.toNat ≤ 57 then (c.toNat - 48) :: Spec.digits cs else Spec.digits cs := by
      by_cases h : 48 ≤ c.toNat ∧ c.toNat ≤ 57 <;> simp [Spec.digits, h]
    by_cases h : isDigit c = true
    · rw [e, if_pos ((isDigit_iff c).mp h), digitsOf, if_pos h, List.map_cons, ih, digitValue_toNat h]
    · rw [e, if_neg (fun k => h ((isDigit_iff c).mpr k)), digitsOf, if_neg h, ih]

theorem digitsOf_length (pay : List Character) : (digitsOf pay).length = (Spec.digits pay).length := by
  rw [← digitsOf_toNat, List.length_map]

theorem digitsOf_length_le (pay : List Character) : (digitsOf pay).length ≤ pay.length := by
  induction pay with
  | nil => simp [digitsOf]
  | cons c cs ih => 
    by_cases h : isDigit c = true <;> simp [digitsOf, h] <;> omega

/-- Every digit value is 0 to 9 (R28). -/
theorem digitsOf_le_nine (pay : List Character) : ∀ d ∈ digitsOf pay, d.toNat ≤ 9 := by
  induction pay with
  | nil => simp [digitsOf]
  | cons c cs ih =>
    by_cases h : isDigit c = true
    · have h2 := (isDigit_iff c).mp h
      simp only [digitsOf, h, if_true, List.mem_cons, forall_eq_or_imp, digitValue_toNat h]
      exact ⟨by omega, ih⟩
    · simpa [digitsOf, h] using ih

/-- A list of twelve or more elements, laid out. -/
theorem exists_twelve {α : Type} {l : List α} (h : 12 ≤ l.length) :
    ∃ d0 d1 d2 d3 d4 d5 d6 d7 d8 d9 d10 d11 rest,
      l = d0 :: d1 :: d2 :: d3 :: d4 :: d5 :: d6 :: d7 :: d8 :: d9 :: d10 :: d11 :: rest := by
  rcases l with _ | ⟨d0, _ | ⟨d1, _ | ⟨d2, _ | ⟨d3, _ | ⟨d4, _ | ⟨d5, _ | ⟨d6, _ | ⟨d7, _ | ⟨d8, _ | ⟨d9, _ | ⟨d10, _ | ⟨d11, rest⟩⟩⟩⟩⟩⟩⟩⟩⟩⟩⟩⟩
  all_goals first
    | exact ⟨_, _, _, _, _, _, _, _, _, _, _, _, _, rfl⟩
    | (exfalso; simp only [List.length_cons, List.length_nil] at h; omega)

/-- The length check after stripping (R103); NDIG counts exactly up to NMAX characters. -/
theorem checkLength_strip {pay : List Character} (hn : pay.length ≤ Config.nmax) (w : Work) :
   checkLength (strip pay w) = if (Spec.digits pay).length < 12 then .error (.raise .invalidInput) else .ok (strip pay w) := by
  have h1 := digitsOf_length_le pay
  have : ((strip pay w).regs.ndig).toNat = (Spec.digits pay).length := by
    simp only [strip, BitVec.toNat_ofNat, ← digitsOf_length]
    unfold Config.nmax at hn
    omega
  simp only [checkLength, this]


/-- Truncation of twelve or more digits (R104). -/
theorem truncate_of_eq {w : Work} {d0 d1 d2 d3 d4 d5 d6 d7 d8 d9 d10 d11 : Digit} {rest : List Digit}
    (h : w.regs.d = d0 :: d1 :: d2 :: d3 :: d4 :: d5 :: d6 :: d7 :: d8 :: d9 :: d10 :: d11 :: rest) :
    truncate w = .ok { w with regs := { w.regs with
      dig := #v[d0, d1, d2, d3, d4, d5, d6, d7, d8, d9, d10, d11, w.regs.dig[12]] } } := by
  simp only [truncate, h]

/-- The sums, the total and the check digit from twelve digits (R105 to R107): no register wraps (R108). -/
theorem checkDigit_total_sums {w : Work} {d0 d1 d2 d3 d4 d5 d6 d7 d8 d9 d10 d11 x : Digit}
    (hw : w.regs.dig = #v[d0, d1, d2, d3, d4, d5, d6, d7, d8, d9, d10, d11, x])
    (h9 : ∀ d ∈ [d0, d1, d2, d3, d4, d5, d6, d7, d8, d9, d10, d11], d.toNat ≤ 9) :
    (checkDigit (total (sums w))).regs.chk10.toNat = Spec.eanCheck ([d0, d1, d2, d3, d4, d5, d6, d7, d8, d9, d10, d11].map BitVec.toNat) ∧
    (checkDigit (total (sums w))).regs.dig = #v[d0, d1, d2, d3, d4, d5, d6, d7, d8, d9, d10, d11, (checkDigit (total (sums w))).regs.chk10] ∧
    (checkDigit (total (sums w))).out = w.out := by
  simp only [List.mem_cons, forall_eq_or_imp] at h9
  obtain ⟨b0,b1,b2,b3,b4,b5,b6,b7,b8,b9,b10,b11,-⟩ := h9
  refine ⟨?_, ?_, rfl⟩
  · have e1 : (sums w).regs.sumo.toNat = d0.toNat + d2.toNat + d4.toNat + d6.toNat + d8.toNat + d10.toNat := by
      simp only [sums, hw, BitVec.toNat_ofNat]
      exact Nat.mod_eq_of_lt (by simp; omega)
    have e2 : (sums w).regs.sume.toNat = d1.toNat + d3.toNat + d5.toNat + d7.toNat + d9.toNat + d11.toNat := by
      simp only [sums, hw, BitVec.toNat_ofNat]
      exact Nat.mod_eq_of_lt (by simp; omega)
    have e3 : (total (sums w)).regs.tot.toNat = Spec.weighted 1 ([d0, d1, d2, d3, d4, d5, d6, d7, d8, d9, d10, d11].map BitVec.toNat) := by
      simp only [total, e1, e2, BitVec.toNat_ofNat, List.map_cons, List.map_nil, Spec.weighted]
      omega
    have e4 : (checkDigit (total (sums w))).regs.chk10 = BitVec.ofNat 4 (if (total (sums w)).regs.tot.toNat % 10 ≠ 0 then 10 - (total (sums w)).regs.tot.toNat % 10 else (total (sums w)).regs.tot.toNat % 10) := rfl
    rw [e4, e3, Spec.eanCheck, BitVec.toNat_ofNat]
    generalize Spec.weighted 1 _ = t
    by_cases ht : t % 10 = 0
    · simp [ht]
    · simp only [ht, ne_eq, not_false_eq_true, if_true, if_false]; omega
  · have : (checkDigit (total (sums w))).regs.dig = w.regs.dig.set 12 (checkDigit (total (sums w))).regs.chk10 := rfl
    rw [this, hw]
    rfl

/-- The whole checksum calculator on a payload with twelve digits or more (R100): CHECKSUM and TEXT are filled, DIG
holds the 13 digits. -/
theorem eanChecksum_ok {pay : List Character} (hn : pay.length ≤ Config.nmax) (h12 : 12 ≤ (Spec.digits pay).length) (w : Work) :
    ∃ v, eanChecksum pay w = .ok v ∧ v.out = { w.out with checksum := BitVec.ofNat 7 (Spec.eanCheck (Spec.kept pay)), text := w.out.text ++ Spec.eanText pay } 
      ∧ v.regs.dig.toList.map BitVec.toNat = Spec.eanDigits pay := by
  have hc := checkLength_strip hn w
  rw [if_neg (by omega)] at hc
  rw [← digitsOf_length] at h12
  obtain ⟨d0,d1,d2,d3,d4,d5,d6,d7,d8,d9,d10,d11,rest,hd⟩ := exists_twelve h12
  have hk : Spec.kept pay = [d0,d1,d2,d3,d4,d5,d6,d7,d8,d9,d10,d11].map BitVec.toNat := by
    rw [Spec.kept, ← digitsOf_toNat, hd]; rfl
  have h9 : ∀ d ∈ [d0, d1, d2, d3, d4, d5, d6, d7, d8, d9, d10, d11], d.toNat ≤ 9 := by
    intro d hm
    apply digitsOf_le_nine pay
    rw [hd]
    simp only [List.mem_cons, List.not_mem_nil, or_false] at hm ⊢
    tauto
  have ht : ∃ u, truncate (strip pay w) = .ok u ∧ u.regs.dig = #v[d0,d1,d2,d3,d4,d5,d6,d7,d8,d9,d10,d11, w.regs.dig[12]] ∧ u.out = w.out := by
    exact ⟨_, truncate_of_eq (w := strip pay w) hd, rfl, rfl⟩
  obtain ⟨u, hu, hdig, hout⟩ := ht
  obtain ⟨c1, c2, c3⟩ := checkDigit_total_sums hdig h9
  refine ⟨eanText (checkDigit (total (sums u))), ?_, ?_, ?_⟩
  · rw [eanChecksum, hc]
    show (truncate (strip pay w) >>= fun w => pure (eanText (checkDigit (total (sums w))))) = _
    rw [hu]; rfl
  · simp only [eanText, Work.emitText, Work.setChecksum, c1, c2, c3, hout, hk, Spec.eanText, Spec.eanDigits]
    simp [digitChar, c1]
  · show List.map BitVec.toNat (checkDigit (total (sums u))).regs.dig.toList = _
    rw [c2, Spec.eanDigits, hk, ← c1]; rfl

/-- Codes of digits within their tables, side by side (R126). -/
theorem readCodes_ok (l : List (List (BitVec 7) × Digit)) (h : ∀ x ∈ l, x.2.toNat < x.1.length) :
    readCodes l = .ok (l.flatMap fun x => Spec.code x.1 x.2.toNat) := by
  induction l with
  | nil => rfl
  | cons x l ih =>
    obtain ⟨t, d⟩ := x
    have hx : d.toNat < t.length := h (t, d) (by simp)
    rw [readCodes, romRead_of_lt hx, ih (fun x hm => h x (by simp [hm]))]
    simp [bind, Except.bind, pure, Except.pure, Spec.code, List.getElem?_eq_getElem hx]

theorem eanDigits_le_nine (pay : List Character) : ∀ d ∈ Spec.eanDigits pay, d ≤ 9 := by
  intro d hm
  simp only [Spec.eanDigits, List.mem_append, List.mem_singleton] at hm
  rcases hm with hm | rfl
  · have := List.mem_of_mem_take hm
    rw [← digitsOf_toNat, List.mem_map] at this
    obtain ⟨x, hx, rfl⟩ := this
    exact digitsOf_le_nine pay x hx
  · unfold Spec.eanCheck; split <;> omega

/-- Parity selection and bit assembly from 13 digits (R125, R126). -/
theorem assembleEan_ok {w : Work} {ds : List Nat} (hd : w.regs.dig.toList.map BitVec.toNat = ds)
    (h9 : ∀ d ∈ ds, d ≤ 9) :
    ∃ par, selectParity w = .ok { w with regs := { w.regs with par := par } } ∧
      assembleEan { w with regs := { w.regs with par := par } } = .ok (Spec.eanBits ds) := by
  obtain ⟨⟨⟨l⟩, hl⟩, hdig⟩ : ∃ d, d = w.regs.dig := ⟨_, rfl⟩
  have hl : l.length = 13 := hl
  obtain ⟨d0, d1, d2, d3, d4, d5, d6, d7, d8, d9, d10, d11, rest, rfl⟩ := exists_twelve (l := l) (by omega)
  obtain ⟨d12, rfl⟩ : ∃ d, rest = [d] := by
    simp only [List.length_cons] at hl
    exact List.length_eq_one_iff.mp (by omega)
  have hds : ds = [d0, d1, d2, d3, d4, d5, d6, d7, d8, d9, d10, d11, d12].map BitVec.toNat := by
    rw [← hd, ← hdig]; rfl
  subst hds
  simp only [List.map_cons, List.map_nil, List.mem_cons, forall_eq_or_imp] at h9
  obtain ⟨b0,b1,b2,b3,b4,b5,b6,b7,b8,b9,b10,b11,b12,-⟩ := h9
  have hp : d0.toNat < parityRom.length := by simp [parityRom]; omega
  have e0 : w.regs.dig[0] = d0 := by rw [← hdig]; rfl
  have e1 : w.regs.dig[1] = d1 := by rw [← hdig]; rfl
  have e2 : w.regs.dig[2] = d2 := by rw [← hdig]; rfl
  have e3 : w.regs.dig[3] = d3 := by rw [← hdig]; rfl
  have e4 : w.regs.dig[4] = d4 := by rw [← hdig]; rfl
  have e5 : w.regs.dig[5] = d5 := by rw [← hdig]; rfl
  have e6 : w.regs.dig[6] = d6 := by rw [← hdig]; rfl
  have e7 : w.regs.dig[7] = d7 := by rw [← hdig]; rfl
  have e8 : w.regs.dig[8] = d8 := by rw [← hdig]; rfl
  have e9 : w.regs.dig[9] = d9 := by rw [← hdig]; rfl
  have e10 : w.regs.dig[10] = d10 := by rw [← hdig]; rfl
  have e11 : w.regs.dig[11] = d11 := by rw [← hdig]; rfl
  have e12 : w.regs.dig[12] = d12 := by rw [← hdig]; rfl
  refine ⟨Vector.ofFn fun j => (parityRom[d0.toNat]).getMsbD j, ?_, ?_⟩
  · rw [selectParity, e0, romRead_of_lt hp]; rfl
  · have hs : ∀ (p : Bit) (d : Digit), d.toNat ≤ 9 → d.toNat < (sideTable p).length := by
      intro p d h; cases p <;> simp [sideTable, lRom, gRom] <;> omega
    have hr : ∀ (d : Digit), d.toNat ≤ 9 → d.toNat < rRom.length := by
      intro d h; simp [rRom]; omega
    simp only [assembleEan, e1, e2, e3, e4, e5, e6, e7, e8, e9, e10, e11, e12]
    rw [readCodes_ok _ (by simp only [List.mem_cons, forall_eq_or_imp]; simp [hs, b1, b2, b3, b4, b5, b6]),
      readCodes_ok _ (by simp only [List.mem_cons, forall_eq_or_imp]; simp [hr, b7, b8, b9, b10, b11, b12])]
    simp [bind, Except.bind, pure, Except.pure, Spec.eanBits, Spec.leftCodes, msbFirst, List.range,
      List.range.loop, sideTable, List.getElem?_eq_getElem hp]

/-- From a payload with twelve digits or more to the 95-bit pattern (R127, R202). -/
theorem eanPattern_ok {pay : List Character} (hn : pay.length ≤ Config.nmax) (h12 : 12 ≤ (Spec.digits pay).length) (w : Work) :
    ∃ v, eanPattern pay w = .ok (v, Spec.eanBits (Spec.eanDigits pay)) ∧ v.out = { w.out with checksum := BitVec.ofNat 7 (Spec.eanCheck (Spec.kept pay)), text := w.out.text ++ Spec.eanText pay } := by
  obtain ⟨u, hu, hout, hdig⟩ := eanChecksum_ok hn h12 w
  obtain ⟨par, h1, h2⟩ := assembleEan_ok hdig (eanDigits_le_nine pay)
  refine ⟨{ u with regs := { u.regs with par := par } }, ?_, hout⟩
  rw [eanPattern, hu]
  show (selectParity u >>= fun w => assembleEan w >>= fun b => pure (w, b)) = _
  rw [h1]
  show (assembleEan _ >>= fun b => pure (_, b)) = _
  rw [h2]; rfl

end Sys2Proof.Machine
end

