-- ==== Sys2Proof/Laws/PerInstr.lean ====
section
/-! SUPPORT. The family TableRow, one lemma per constructor: an instruction's operation code belongs to the row of
spec/opcode_table.json that carries its mnemonic. -/

namespace Sys2Proof.Laws.TableRow

/-- The operation code of an instruction matches the row of its mnemonic. -/
def Statement (i : Instr) : Prop :=
  ∃ r ∈ opcodeTable, r.mnemonic = i.mnemonic ∧ i.op &&& r.mask = r.pattern

theorem renEan13 (mw h : Px) (pay : List Character) : Statement (.renEan13 mw h pay) :=
  ⟨⟨"REN.EAN13", 0x00, 0xFF⟩, by simp [opcodeTable], rfl, by simp [Instr.op]⟩

theorem renC128 (mw h : Px) (pay : List Character) : Statement (.renC128 mw h pay) :=
  ⟨⟨"REN.C128", 0x01, 0xFF⟩, by simp [opcodeTable], rfl, by simp [Instr.op]⟩

theorem encEan13 (mw h : Px) (pay : List Character) : Statement (.encEan13 mw h pay) :=
  ⟨⟨"ENC.EAN13", 0x10, 0xFF⟩, by simp [opcodeTable], rfl, by simp [Instr.op]⟩

theorem encC128 (mw h : Px) (pay : List Character) : Statement (.encC128 mw h pay) :=
  ⟨⟨"ENC.C128", 0x11, 0xFF⟩, by simp [opcodeTable], rfl, by simp [Instr.op]⟩

theorem chkEan13 (mw h : Px) (pay : List Character) : Statement (.chkEan13 mw h pay) :=
  ⟨⟨"CHK.EAN13", 0x20, 0xFF⟩, by simp [opcodeTable], rfl, by simp [Instr.op]⟩

theorem chkC128 (mw h : Px) (pay : List Character) : Statement (.chkC128 mw h pay) :=
  ⟨⟨"CHK.C128", 0x21, 0xFF⟩, by simp [opcodeTable], rfl, by simp [Instr.op]⟩

theorem compose (mw h : Px) (pay : List Bit) : Statement (.compose mw h pay) :=
  ⟨⟨"COMPOSE", 0x30, 0xFF⟩, by simp [opcodeTable], rfl, by simp [Instr.op]⟩

theorem unsupRen23 (sel : BitVec 1) (mw h : Px) (pay : List Character) : Statement (.unsupRen23 sel mw h pay) :=
  ⟨⟨"UNSUP.REN.2_3", 0x02, 0xFE⟩, by simp [opcodeTable], rfl, by
    have all : ∀ v : BitVec 1, (Instr.unsupRen23 v 0 0 []).op &&& 0xFE = 0x02 := by decide
    exact all sel⟩

theorem unsupRen47 (sel : BitVec 2) (mw h : Px) (pay : List Character) : Statement (.unsupRen47 sel mw h pay) :=
  ⟨⟨"UNSUP.REN.4_7", 0x04, 0xFC⟩, by simp [opcodeTable], rfl, by
    have all : ∀ v : BitVec 2, (Instr.unsupRen47 v 0 0 []).op &&& 0xFC = 0x04 := by decide
    exact all sel⟩

theorem unsupRen8F (sel : BitVec 3) (mw h : Px) (pay : List Character) : Statement (.unsupRen8F sel mw h pay) :=
  ⟨⟨"UNSUP.REN.8_F", 0x08, 0xF8⟩, by simp [opcodeTable], rfl, by
    have all : ∀ v : BitVec 3, (Instr.unsupRen8F v 0 0 []).op &&& 0xF8 = 0x08 := by decide
    exact all sel⟩

theorem unsupEnc23 (sel : BitVec 1) (mw h : Px) (pay : List Character) : Statement (.unsupEnc23 sel mw h pay) :=
  ⟨⟨"UNSUP.ENC.2_3", 0x12, 0xFE⟩, by simp [opcodeTable], rfl, by
    have all : ∀ v : BitVec 1, (Instr.unsupEnc23 v 0 0 []).op &&& 0xFE = 0x12 := by decide
    exact all sel⟩

theorem unsupEnc47 (sel : BitVec 2) (mw h : Px) (pay : List Character) : Statement (.unsupEnc47 sel mw h pay) :=
  ⟨⟨"UNSUP.ENC.4_7", 0x14, 0xFC⟩, by simp [opcodeTable], rfl, by
    have all : ∀ v : BitVec 2, (Instr.unsupEnc47 v 0 0 []).op &&& 0xFC = 0x14 := by decide
    exact all sel⟩

theorem unsupEnc8F (sel : BitVec 3) (mw h : Px) (pay : List Character) : Statement (.unsupEnc8F sel mw h pay) :=
  ⟨⟨"UNSUP.ENC.8_F", 0x18, 0xF8⟩, by simp [opcodeTable], rfl, by
    have all : ∀ v : BitVec 3, (Instr.unsupEnc8F v 0 0 []).op &&& 0xF8 = 0x18 := by decide
    exact all sel⟩

theorem unsupChk23 (sel : BitVec 1) (mw h : Px) (pay : List Character) : Statement (.unsupChk23 sel mw h pay) :=
  ⟨⟨"UNSUP.CHK.2_3", 0x22, 0xFE⟩, by simp [opcodeTable], rfl, by
    have all : ∀ v : BitVec 1, (Instr.unsupChk23 v 0 0 []).op &&& 0xFE = 0x22 := by decide
    exact all sel⟩

theorem unsupChk47 (sel : BitVec 2) (mw h : Px) (pay : List Character) : Statement (.unsupChk47 sel mw h pay) :=
  ⟨⟨"UNSUP.CHK.4_7", 0x24, 0xFC⟩, by simp [opcodeTable], rfl, by
    have all : ∀ v : BitVec 2, (Instr.unsupChk47 v 0 0 []).op &&& 0xFC = 0x24 := by decide
    exact all sel⟩

theorem unsupChk8F (sel : BitVec 3) (mw h : Px) (pay : List Character) : Statement (.unsupChk8F sel mw h pay) :=
  ⟨⟨"UNSUP.CHK.8_F", 0x28, 0xF8⟩, by simp [opcodeTable], rfl, by
    have all : ∀ v : BitVec 3, (Instr.unsupChk8F v 0 0 []).op &&& 0xF8 = 0x28 := by decide
    exact all sel⟩

theorem unsupCompose1 (mw h : Px) (pay : List Character) : Statement (.unsupCompose1 mw h pay) :=
  ⟨⟨"UNSUP.COMPOSE.1", 0x31, 0xFF⟩, by simp [opcodeTable], rfl, by simp [Instr.op]⟩

theorem unsupCompose23 (sel : BitVec 1) (mw h : Px) (pay : List Character) : Statement (.unsupCompose23 sel mw h pay) :=
  ⟨⟨"UNSUP.COMPOSE.2_3", 0x32, 0xFE⟩, by simp [opcodeTable], rfl, by
    have all : ∀ v : BitVec 1, (Instr.unsupCompose23 v 0 0 []).op &&& 0xFE = 0x32 := by decide
    exact all sel⟩

theorem unsupCompose47 (sel : BitVec 2) (mw h : Px) (pay : List Character) : Statement (.unsupCompose47 sel mw h pay) :=
  ⟨⟨"UNSUP.COMPOSE.4_7", 0x34, 0xFC⟩, by simp [opcodeTable], rfl, by
    have all : ∀ v : BitVec 2, (Instr.unsupCompose47 v 0 0 []).op &&& 0xFC = 0x34 := by decide
    exact all sel⟩

theorem unsupCompose8F (sel : BitVec 3) (mw h : Px) (pay : List Character) : Statement (.unsupCompose8F sel mw h pay) :=
  ⟨⟨"UNSUP.COMPOSE.8_F", 0x38, 0xF8⟩, by simp [opcodeTable], rfl, by
    have all : ∀ v : BitVec 3, (Instr.unsupCompose8F v 0 0 []).op &&& 0xF8 = 0x38 := by decide
    exact all sel⟩

theorem unsupFn47 (sel : BitVec 6) (mw h : Px) (pay : List Character) : Statement (.unsupFn47 sel mw h pay) :=
  ⟨⟨"UNSUP.FN.4_7", 0x40, 0xC0⟩, by simp [opcodeTable], rfl, by
    have all : ∀ v : BitVec 6, (Instr.unsupFn47 v 0 0 []).op &&& 0xC0 = 0x40 := by decide
    exact all sel⟩

theorem unsupFn8B (sel : BitVec 6) (mw h : Px) (pay : List Character) : Statement (.unsupFn8B sel mw h pay) :=
  ⟨⟨"UNSUP.FN.8_B", 0x80, 0xC0⟩, by simp [opcodeTable], rfl, by
    have all : ∀ v : BitVec 6, (Instr.unsupFn8B v 0 0 []).op &&& 0xC0 = 0x80 := by decide
    exact all sel⟩

theorem unsupFnCF (sel : BitVec 6) (mw h : Px) (pay : List Character) : Statement (.unsupFnCF sel mw h pay) :=
  ⟨⟨"UNSUP.FN.C_F", 0xC0, 0xC0⟩, by simp [opcodeTable], rfl, by
    have all : ∀ v : BitVec 6, (Instr.unsupFnCF v 0 0 []).op &&& 0xC0 = 0xC0 := by decide
    exact all sel⟩

end Sys2Proof.Laws.TableRow
end

