-- ==== Sys2Proof/Tests/Slice0.lean ====
section
/-! SUPPORT. Tests: small theorems on fixed values, each taken from spec/95_test_vectors.md or worked by hand from the
rule its comment names, and for every statement with hypotheses a witness that meets them. -/

namespace Sys2Proof.Tests

open Machine

/-! ### Helpers -/

/-- LCW's twelve digits of Scenario 1. -/
def twelve : List Character := codes "590123412345"

/-- A pattern written as 0s and 1s, element 0 first. -/
def pattern (s : String) : List Bit := s.toList.map (· == '1')

/-- STATUS, CHECKSUM and TEXT of what an instruction answers from reset. -/
def checked (i : Instr) : Option (Nat × Nat × List Character) :=
  (responseOf (exec i State.reset)).map fun r => (r.status.toNat, r.checksum.toNat, r.text)

/-- BITS of what an instruction answers from reset. -/
def bitsOf (i : Instr) : Option (List Bit) := (responseOf (exec i State.reset)).map (·.bits)

/-- The tile references of what an instruction answers from reset. -/
def refsOf (i : Instr) : Option (List Nat) :=
  (responseOf (exec i State.reset)).map fun r => r.tiles.map fun t => (Tile.ref t).toNat

/-! ### WellFormed: an ill-formed term for each check -/

theorem test_payload_beyond_nmax_is_ill_formed :
    ¬ (Instr.chkC128 0 0 (List.replicate (Config.nmax + 1) 65)).WellFormed := by
  simp only [Instr.WellFormed, Instr.payload, Payload.length, List.length_replicate]
  exact Nat.not_succ_le_self _

theorem test_pattern_beyond_nmax_is_ill_formed :
    ¬ (Instr.compose 1 1 (List.replicate (Config.nmax + 1) true)).WellFormed := by
  simp only [Instr.WellFormed, Instr.payload, Payload.length, List.length_replicate]
  exact Nat.not_succ_le_self _

theorem test_zero_width_is_outside_the_contract : ¬ (Instr.compose 0 1 [true]).DimensionsOk := by decide

theorem test_zero_height_is_outside_the_contract : ¬ (Instr.renC128 1 0 []).DimensionsOk := by decide

/-! ### Decoding: one word per constructor, written out from R71, R80, R82 to R84 -/

/-- HDR = OP, MW = 3 in bits 23:8, H = 60 = 0x3C in bits 39:24, LEN = 0: the seven operations of R82. -/
theorem test_seven_words_decode :
    decodeTableWord 64 0x000000003C000300 = some (.renEan13 3 60 []) ∧
    decodeTableWord 64 0x000000003C000301 = some (.renC128 3 60 []) ∧
    decodeTableWord 64 0x000000003C000310 = some (.encEan13 3 60 []) ∧
    decodeTableWord 64 0x000000003C000311 = some (.encC128 3 60 []) ∧
    decodeTableWord 64 0x000000003C000320 = some (.chkEan13 3 60 []) ∧
    decodeTableWord 64 0x000000003C000321 = some (.chkC128 3 60 []) ∧
    decodeTableWord 64 0x000000003C000330 = some (.compose 3 60 []) := by decide

/-- The unsupported formats of R83, each class at its last value. -/
theorem test_unsupported_format_words_decode :
    decodeTableWord 64 0x000000003C000303 = some (.unsupRen23 1 3 60 []) ∧
    decodeTableWord 64 0x000000003C000307 = some (.unsupRen47 3 3 60 []) ∧
    decodeTableWord 64 0x000000003C00030F = some (.unsupRen8F 7 3 60 []) ∧
    decodeTableWord 64 0x000000003C000313 = some (.unsupEnc23 1 3 60 []) ∧
    decodeTableWord 64 0x000000003C000317 = some (.unsupEnc47 3 3 60 []) ∧
    decodeTableWord 64 0x000000003C00031F = some (.unsupEnc8F 7 3 60 []) ∧
    decodeTableWord 64 0x000000003C000323 = some (.unsupChk23 1 3 60 []) ∧
    decodeTableWord 64 0x000000003C000327 = some (.unsupChk47 3 3 60 []) ∧
    decodeTableWord 64 0x000000003C00032F = some (.unsupChk8F 7 3 60 []) := by decide

/-- The reserved codes of R84, each class at its first value. -/
theorem test_reserved_words_decode :
    decodeTableWord 64 0x000000003C000331 = some (.unsupCompose1 3 60 []) ∧
    decodeTableWord 64 0x000000003C000332 = some (.unsupCompose23 0 3 60 []) ∧
    decodeTableWord 64 0x000000003C000334 = some (.unsupCompose47 0 3 60 []) ∧
    decodeTableWord 64 0x000000003C000338 = some (.unsupCompose8F 0 3 60 []) ∧
    decodeTableWord 64 0x000000003C000340 = some (.unsupFn47 0 3 60 []) ∧
    decodeTableWord 64 0x000000003C000380 = some (.unsupFn8B 0 3 60 []) ∧
    decodeTableWord 64 0x000000003C0003C0 = some (.unsupFnCF 0 3 60 []) := by decide

/-- Payload elements after the header's 64 bits: LEN = 6 pattern bits `101011` (X3), LEN = 2 characters 65, 66. -/
theorem test_payload_bits_decode :
    decodeTableWord 72 (0x0000060032000230 + 0b110101 * 2 ^ 64) =
      some (.compose 2 50 [true, false, true, false, true, true]) ∧
    decodeTableWord 96 (0x0000020000000021 + 0x00420041 * 2 ^ 64) = some (.chkC128 0 0 [65, 66]) := by decide

/-- P1's and S5's header words encode the requests they stand for. -/
theorem test_headers_of_p1_and_s5 :
    (encode (.renEan13 3 60 twelve)).hdr = 0x00000C003C000300#64 ∧
    (encode (.unsupRen8F 7 2 50 (codes "X"))).hdr = 0x000001003200020F#64 := by decide

/-! ### CHK.EAN13 -/

/-- V6: separators stripped, the thirteenth digit dropped. -/
theorem test_chk_ean13_v6 :
    checked (.chkEan13 0 0 (codes "4 006381-333931")) = some (0, 1, codes "4006381333931") := by decide

/-- V9: TOT = 110, a multiple of 10, gives check digit 0. -/
theorem test_chk_ean13_v9 :
    checked (.chkEan13 0 0 (codes "012345678905")) = some (0, 0, codes "0123456789050") := by decide

/-! ### ENC.EAN13 -/

/-- V1's 95 bits. -/
theorem test_enc_ean13_v1 :
    bitsOf (.encEan13 0 0 twelve) = some (pattern
      "10100010110100111011001100100110111101001110101010110011011011001000010101110010011101000100101") := by
  decide

/-- V17: 11 digits and code 58, one above the digits. -/
theorem test_enc_ean13_v17 : checked (.encEan13 0 0 (codes "12345678901:")) = some (1, 0, []) := by decide

/-! ### REN.EAN13 -/

/-- Y1. -/
theorem test_ren_ean13_y1 :
    refsOf (.renEan13 2 50 twelve) =
      some [20, 11, 9, 27, 6, 9, 23, 20, 29, 10, 25, 22, 25, 1, 11, 18, 14, 17, 5] := by decide

/-- P1, response 4: the two header words. -/
theorem test_ren_ean13_p1_words :
    (responseOf (exec (.renEan13 3 60 twelve) State.reset)).map (fun r => (r.rsp0, r.rsp1)) =
      some (0x0000000D0000001C#64, 0x0000001300000000#64) := by decide

/-! ### CHK.C128 -/

/-- W2: code 1 is substituted in the checksum and kept in the text. -/
theorem test_chk_c128_w2 : checked (.chkC128 0 0 [65, 66, 1]) = some (0, 92, [65, 66, 1]) := by decide

/-- W33: a check value that no character has. -/
theorem test_chk_c128_w33 : checked (.chkC128 0 0 (codes "!R")) = some (0, 102, codes "!R") := by decide

/-! ### ENC.C128 -/

/-- W3: the empty payload's 55 bits. -/
theorem test_enc_c128_w3 :
    bitsOf (.encC128 0 0 []) = some (pattern "0000000000110100100001100110110011000111010110000000000") := by decide

/-- W1: LCW's Scenario 3. -/
theorem test_enc_c128_w1 :
    bitsOf (.encC128 0 0 (codes "AB12")) = some (pattern
      "000000000011010010000101000110001000101100010011100110110011100101100101110011000111010110000000000") := by
  decide

/-! ### REN.C128 -/

/-- Z1. -/
theorem test_ren_c128_z1 :
    refsOf (.renC128 2 50 (codes "AB12")) =
      some [0, 0, 26, 8, 10, 6, 4, 11, 2, 14, 13, 19, 18, 25, 14, 12, 14, 22, 0, 0] := by decide

/-! ### COMPOSE -/

/-- X3's descriptor words. -/
theorem test_compose_x3 :
    (responseOf (exec (.compose 2 50 (pattern "101011")) State.reset)).map (·.tiles) =
      some [0x0032000155#40, 0x0032000150#40] := by decide

/-- The largest dimensions: descriptor 0xFFFF9FFF75 for group 21. -/
theorem test_compose_largest :
    (responseOf (exec (.compose 65535 65535 (pattern "10101")) State.reset)).map (·.tiles) =
      some [0xFFFF9FFF75#40] := by decide

/-! ### UNSUP -/

/-- Q1 to Q8: RSP0 = 2, RSP1 = 0. -/
theorem test_unsupported_q1_to_q8 :
    ∀ op ∈ [0x02#8, 0x0F#8, 0x12#8, 0x2F#8, 0x31#8, 0x3F#8, 0x40#8, 0xFF#8],
      (match decodeOp op 7 9 (.chars [1, 2]) with
        | .ok i => (responseOf (exec i State.reset)).map fun r => (r.rsp0, r.rsp1)
        | .error _ => none) = some (0x2#64, 0x0#64) := by decide

/-! ### Refusals, reset, the host's side -/

theorem test_zero_height_is_refused :
    (match exec (.renEan13 1 0 []) State.reset with | .refused q => some q | _ => none) = some .zeroDimension := by
  decide

theorem test_wrong_length_is_refused :
    (match step { State.reset with req := some ⟨0x0000020000000021#64, .chars [65]⟩ } with
      | .refused q => some q | _ => none) = some .lengthMismatch := by decide

/-- R241: the request is cut off and gets no response. -/
theorem test_reset_abandons :
    (match step { State.reset with req := some (encode (.chkC128 0 0 [65])), resetIn := true } with
      | .next t => some (t.req.isNone && t.rsp.isNone) | _ => none) = some true := by decide

/-- S5 and V15 in the textual form of R87: `REN.UNSUP "X", mw=2, h=50` and an escape. -/
theorem test_assemble_s5_and_escape :
    assemble (codes "REN.UNSUP \"X\", mw=2, h=50") = some ⟨0x000001003200020F#64, .chars [88]⟩ ∧
    assemble (codes "CHK.C128 \"AB\\u0001\"") = some ⟨0x0000030000000021#64, .chars [65, 66, 1]⟩ := by decide

/-- R87: dimensions may be left out only for CHK and ENC; X1 has them. -/
theorem test_assemble_compose :
    assemble (codes "COMPOSE b1, mw=2, h=50") = some ⟨0x0000010032000230#64, .bits [true]⟩ ∧
    assemble (codes "COMPOSE b1") = none := by decide

/-! ### Witnesses: the hypotheses of each statement can be met together -/

/-- A state with a request presented. -/
def busy (i : Instr) : State := { State.reset with req := some (encode i) }

theorem witness_ResetAbandonsTheTransaction : (busy (.chkC128 0 0 [65])).assertReset.resetIn = true := rfl

theorem witness_ResentRequestGetsItsResponse :
    ∃ (s t u : State) (r : Request), s.req = some r ∧ s.resetIn = false ∧ step s.assertReset = .next t ∧
      t.present r = some u :=
  ⟨busy (.chkC128 0 0 [65]), (busy (.chkC128 0 0 [65])).assertReset.afterReset, _, encode (.chkC128 0 0 [65]),
    rfl, rfl, rfl, rfl⟩

theorem witness_StepRunsTheDecodedInstruction :
    (busy (.compose 2 50 [true])).resetIn = false ∧
    (busy (.compose 2 50 [true])).req = some (encode (.compose 2 50 [true])) ∧
    (match decode (encode (.compose 2 50 [true])) with | .ok i => some i | .error _ => none) =
      some (.compose 2 50 [true]) := by decide

theorem witness_LengthMustMatchPayload :
    ∃ (s : State) (r : Request), s.resetIn = false ∧ s.req = some r ∧ r.pay.length ≠ (Header.len r.hdr).toNat :=
  ⟨{ State.reset with req := some ⟨0x0000020000000021#64, .chars [65]⟩ }, _, rfl, rfl, by decide⟩

theorem witness_ElementWidthMustFollowOperation :
    (∃ r : Request, r.pay.length = (Header.len r.hdr).toNat ∧ Header.op r.hdr = 0x30 ∧ r.pay = .chars [65]) ∧
    (∃ r : Request, r.pay.length = (Header.len r.hdr).toNat ∧ Header.op r.hdr ≠ 0x30 ∧ r.pay = .bits [true]) :=
  ⟨⟨⟨0x0000010032000230#64, .chars [65]⟩, by decide⟩, ⟨⟨0x0000010032000231#64, .bits [true]⟩, by decide⟩⟩

/-- The three cases of StepAnswersOneRequestOrIdles: reset, idle, a request. -/
theorem witness_StepAnswersOneRequestOrIdles :
    (∃ s t : State, s.resetIn = true ∧ step s = .next t) ∧
    (∃ s t : State, s.resetIn = false ∧ s.req = none ∧ step s = .next t) ∧
    (∃ s t : State, s.resetIn = false ∧ s.req ≠ none ∧ step s = .next t) :=
  ⟨⟨State.reset.assertReset, _, rfl, rfl⟩, ⟨State.reset, _, rfl, rfl, rfl⟩,
    ⟨busy (.unsupFn47 0 0 0 []), (busy (.unsupFn47 0 0 0 [])).raiseError .unsupportedFormat, rfl, by decide, by rfl⟩⟩

theorem witness_EveryInstructionInContractCompletes :
    (Instr.renEan13 1 1 twelve).WellFormed ∧ (Instr.renEan13 1 1 twelve).DimensionsOk ∧
    (Instr.unsupFnCF 63 0 0 []).WellFormed ∧ (Instr.unsupFnCF 63 0 0 []).DimensionsOk := by decide

theorem witness_EarlierRequestsLeaveNothingBehind :
    ∃ (s t u v : State) (r : Request), s.req ≠ none ∧ s.resetIn = false ∧ step s = .next t ∧
      t.present r = some u ∧ State.reset.present r = some v :=
  ⟨busy (.unsupFn47 0 0 0 []), (busy (.unsupFn47 0 0 0 [])).raiseError .unsupportedFormat, _, _,
    encode (.chkC128 0 0 [65]), by decide, rfl, by rfl, rfl, rfl⟩

theorem witness_StepKeepsResponsesSound :
    ∃ s t : State, s.Sound ∧ s.req ≠ none ∧ step s = .next t :=
  ⟨busy (.unsupFn47 0 0 0 []), (busy (.unsupFn47 0 0 0 [])).raiseError .unsupportedFormat,
    (by intro r h; cases h), by decide, by rfl⟩

theorem witness_DecodeOfEncodeIsTheInstruction : (Instr.unsupRen8F 7 2 50 [88]).WellFormed := by decide

theorem witness_EncodeOfDecodeIsTheRequest :
    ∃ (r : Request) (i : Instr), decode r = .ok i := ⟨encode (.chkC128 0 0 [65]), .chkC128 0 0 [65], by rfl⟩

theorem witness_OtherOperationCodesAreUnsupported :
    0x02#8 ∉ [0x00#8, 0x01#8, 0x10#8, 0x11#8, 0x20#8, 0x21#8, 0x30#8] ∧
    0xFF#8 ∉ [0x00#8, 0x01#8, 0x10#8, 0x11#8, 0x20#8, 0x21#8, 0x30#8] := by decide

theorem witness_DecoderFollowsTheOpcodeTable :
    ∃ i, decodeOp 0x02 0 0 (.chars []) = .ok i ∧ ∃ r ∈ opcodeTable, 0x02 &&& r.mask = r.pattern :=
  ⟨.unsupRen23 0 0 0 [], by rfl, by decide⟩

/-- Eleven digits, the largest number that is too few, and twelve, the smallest that is enough. -/
theorem witness_TooFewDigitsIsInvalidInput :
    (codes "12345678901").length ≤ Config.nmax ∧ (Spec.digits (codes "12345678901")).length < 12 ∧
    twelve.length ≤ Config.nmax ∧ 12 ≤ (Spec.digits twelve).length ∧ (1 : Px) ≠ 0 := by decide

theorem witness_DimensionsAreRequiredOrIgnored : ((0 : Px) = 0 ∨ (1 : Px) = 0) ∧ ((1 : Px) = 0 ∨ (0 : Px) = 0) := by
  decide

theorem witness_StripWritesDigitRegisters : twelve.length ≤ Config.nmax := by decide

theorem witness_TruncateCopiesTwelveDigits : 12 ≤ (strip twelve State.reset.begin).regs.d.length := by decide

theorem witness_CheckDigitRegistersAreExact :
    ∀ (k : Nat) (hk : k < 12), (State.reset.begin.regs.dig[k]).toNat ≤ 9 := by decide

theorem witness_ParityRegisterIsSelectedByLeadingDigit : State.reset.begin.regs.dig[0].toNat ≤ 9 := by decide

/-- Twelve digits, the smallest number that suffices: the witness of every EAN-13 result statement. -/
theorem witness_ean13_results :
    twelve.length ≤ Config.nmax ∧ 12 ≤ (Spec.digits twelve).length ∧ (2 : Px) ≠ 0 ∧ (50 : Px) ≠ 0 := by decide

/-- The digits of `twelve` weigh 83 (R111), so 7 is the last digit that meets the hypothesis. -/
theorem witness_ThirteenDigitsSumToAMultipleOfTen :
    ∃ r : Response, responseOf (exec (.chkEan13 0 0 twelve) State.reset) = some r ∧
      (Spec.weighted 1 ((r.text.take 12).map fun c => c.toNat - 48) + 7) % 10 = 0 := by
  refine ⟨_, rfl, by decide⟩

theorem witness_OnlyFirstTwelveDigitsMatter :
    (codes "5901234123450").length ≤ Config.nmax ∧ 12 ≤ (Spec.digits (codes "5901234123450")).length ∧
    Spec.kept twelve = Spec.kept (codes "5901234123450") := by decide

theorem witness_EanPartWritesOnlyItsRegisters :
    ∃ (v : Work) (b : List Bit), eanPattern twelve State.reset.begin = .ok (v, b) :=
  let ⟨v, hv, _⟩ := eanPattern_ok (pay := twelve) (by decide) (by decide) State.reset.begin
  ⟨v, _, hv⟩

theorem witness_WeightedSumIsExact :
    ∃ w : Work, w.regs.sym.length = w.regs.n.toNat ∧ (∀ v ∈ w.regs.sym, v.toNat ≤ 95) ∧ w.regs.n ≠ 0 :=
  ⟨mapSymbols [65, 66] (countCharacters [65, 66] State.reset.begin), by decide⟩

theorem witness_C128PartWritesOnlyItsRegisters :
    ∃ (v : Work) (b : List Bit), c128Pattern [65] State.reset.begin = .ok (v, b) :=
  let ⟨v, hv, _⟩ := c128Pattern_ok (pay := [65]) (by decide) State.reset.begin
  ⟨v, _, hv⟩

theorem witness_WidthsToBitsProperties :
    ∃ ws vs : List Nat, ws ≠ [] ∧ (∀ x ∈ ws, 1 ≤ x) ∧ (∀ x ∈ vs, 1 ≤ x) ∧ w2bBits ws = w2bBits vs :=
  ⟨[2, 1, 2, 2, 2, 2], [2, 1, 2, 2, 2, 2], by decide⟩

/-- A used list (value 0) and an unused one. -/
theorem witness_PatternTableRelations :
    2 + 1 + 2 + 2 + 2 + 2 = 11 ∧ (2 + 2 + 2) % 2 = 0 ∧ 2 + 1 + 1 + 1 + 3 + 3 = 11 ∧ (2 + 1 + 3) % 2 = 0 := by decide

/-- The witness of every Code128-B and composer statement: payloads of lengths 0 and 4, a pattern of one bit. -/
theorem witness_c128_and_composer :
    ([] : List Character).length ≤ Config.nmax ∧ (codes "AB12").length ≤ Config.nmax ∧
    [true].length ≤ Config.nmax ∧ [true].length ≤ 11 * Config.nmax + 55 ∧ (2 : Px) ≠ 0 ∧ (50 : Px) ≠ 0 := by decide

/-- Both outcomes of ENC.EAN13 in RenderIsEncodeThenCompose occur. -/
theorem witness_RenderIsEncodeThenCompose :
    (checked (.encEan13 0 0 twelve)).map (·.1) = some 0 ∧ (checked (.encEan13 0 0 [])).map (·.1) = some 1 := by
  decide

theorem witness_CallFormsDenoteTheirRequests :
    codes "qrcode" ≠ codes "ean13" ∧ codes "qrcode" ≠ codes "code128" := by decide

theorem witness_StringLiteralsAssembleToTheirCodes :
    (codes "AB12").length ≤ Config.nmax ∧ ∀ c ∈ codes "AB12", c.toNat ≠ 34 ∧ c.toNat ≠ 92 := by
  have h : (codes "AB12").all (fun c => c.toNat != 34 && c.toNat != 92) = true := by decide
  exact ⟨by decide, by simpa using h⟩

end Sys2Proof.Tests
end

