-- ==== Sys2Proof/Proofs/Noninterference.lean ====
section
/-! PROOFS. Noninterference (R13, R27): no stage of an operation lets a register it has not written reach the
response, so an instruction has one outcome for all states. Nothing here needs a well-formed payload: where a
count wraps or a table read fails, it does so alike from every state. -/

namespace Sys2Proof.Machine

/-! ### Stages that read only what is declared -/

/-- What `shown` shows of the result of the stage `k`, its stop included, is a function of what `seen` shows of
the stage's argument: nothing else of the argument has an influence. -/
def ReadsOnly {α β γ δ : Type} (seen : α → γ) (k : α → Except Stop β) (shown : β → δ) : Prop :=
  Function.FactorsThrough (fun x => (k x).map shown) seen

theorem ReadsOnly.pure {α β γ δ : Type} {seen : α → γ} {f : α → β} {shown : β → δ}
    (h : ∀ x y, seen x = seen y → shown (f x) = shown (f y)) :
    ReadsOnly seen (fun x => pure (f x)) shown :=
  fun x y hxy => congrArg Except.ok (h x y hxy)

/-- A stage may show less. -/
theorem ReadsOnly.comp {α β γ δ δ' : Type} {seen : α → γ} {k : α → Except Stop β} {shown : β → δ}
    (hk : ReadsOnly seen k shown) (f : δ → δ') : ReadsOnly seen k (f ∘ shown) := by
  intro x y hxy
  have hmap (e : Except Stop β) : e.map (f ∘ shown) = (e.map shown).map f := by cases e <;> rfl
  have h : (k x).map shown = (k y).map shown := hk hxy
  show (k x).map (f ∘ shown) = (k y).map (f ∘ shown)
  rw [hmap, hmap, h]

/-- Stages in sequence: what the first shows is what the second sees. -/
theorem ReadsOnly.bind {α β β' γ δ δ' : Type} {seen : α → γ} {k : α → Except Stop β} {mid : β → δ}
    {l : β → Except Stop β'} {shown : β' → δ'} (hk : ReadsOnly seen k mid) (hl : ReadsOnly mid l shown) :
    ReadsOnly seen (fun x => k x >>= l) shown := by
  intro x y hxy
  have h : (k x).map mid = (k y).map mid := hk hxy
  show (k x >>= l).map shown = (k y >>= l).map shown
  cases hx : k x with
  | error a =>
    cases hy : k y with
    | error b =>
      rw [hx, hy] at h
      cases h
      rfl
    | ok v => rw [hx, hy] at h; cases h
  | ok u =>
    cases hy : k y with
    | error b => rw [hx, hy] at h; cases h
    | ok v =>
      rw [hx, hy] at h
      exact hl (Except.ok.inj h)

/-! ### The end of an operation -/

/-- One outcome for all states. -/
def OneOutcome (k : State → Host.Outcome State Fault Refusal) : Prop :=
  (∃ r : Response, ∀ s : State, k s = .next (s.deliver r)) ∨
  (∃ f : Fault, ∀ s : State, k s = .fault f) ∨
  (∃ q : Refusal, ∀ s : State, k s = .refused q)

/-- Of the work of an operation only the filled response matters at its end. -/
theorem State.finish_congr {a b : Except Stop Work} (h : a.map Work.out = b.map Work.out) (s : State) :
    s.finish a = s.finish b := by
  cases a with
  | error x => cases b with
    | error y => cases h; rfl
    | ok w => cases h
  | ok v => cases b with
    | error y => cases h
    | ok w =>
      have hout : v.out = w.out := Except.ok.inj h
      simp only [State.finish, hout]

/-- An operation whose response does not show the registers it began with has one outcome. -/
theorem oneOutcome_finish {o : Work → Except Stop Work} (h : ReadsOnly Work.out o Work.out) :
    OneOutcome fun s => s.finish (o s.begin) := by
  have same (s : State) {e : Except Stop Work} (he : o State.reset.begin = e) :
      s.finish (o s.begin) = s.finish e :=
    he ▸ State.finish_congr (h (a := s.begin) (b := State.reset.begin) rfl) s
  cases ho : o State.reset.begin with
  | ok w => exact .inl ⟨w.out.respond statusOk, fun s => same s ho⟩
  | error x => cases x with
    | raise e => exact .inl ⟨e.response, fun s => same s ho⟩
    | fault f => exact .inr (.inl ⟨f, fun s => same s ho⟩)

/-- The contract of R74 is decided by the operands. -/
theorem oneOutcome_requireDimensions (mw h : Px) {k : State → Host.Outcome State Fault Refusal}
    (hk : OneOutcome k) : OneOutcome fun s => requireDimensions mw h (k s) := by
  by_cases hz : mw = 0 ∨ h = 0
  · exact .inr (.inr ⟨.zeroDimension, fun s => requireDimensions_of_zero hz (k s)⟩)
  · obtain ⟨hm, hh⟩ := not_or.mp hz
    simpa only [requireDimensions_of_pos hm hh] using hk

theorem oneOutcome_unsupported : OneOutcome unsupported :=
  .inl ⟨ErrorResult.unsupportedFormat.response, fun _ => rfl⟩

/-! ### EAN-13 -/

/-- The length check reads NDIG alone (R103). -/
theorem checkLength_readsOnly :
    ReadsOnly (fun w => (w.regs.ndig, w.regs.d, w.out)) checkLength fun w => (w.regs.d, w.out) := by
  intro w v hseen
  obtain ⟨hndig, hd⟩ := Prod.mk.inj hseen
  by_cases hshort : v.regs.ndig.toNat < 12
  · simp only [checkLength, hndig, if_pos hshort]
  · simp only [checkLength, hndig, if_neg hshort]
    exact congrArg Except.ok hd

/-- From D to the response: DIG[0..11], the sums and the check digit are written before they are read (R104 to
R110), and DIG[12], which R104 leaves stale, is overwritten by R107. -/
theorem truncate_checkDigit_readsOnly :
    ReadsOnly (fun w => (w.regs.d, w.out))
      (fun w => truncate w >>= fun u => pure (eanText (checkDigit (total (sums u)))))
      fun w => (w.regs.dig, w.out) := by
  rintro ⟨r, out⟩ ⟨t, _⟩ hseen
  obtain ⟨hd, rfl⟩ := Prod.mk.inj hseen
  simp only [truncate, show r.d = t.d from hd]
  split <;> rfl

/-- The checksum calculator writes D and NDIG first (R100, R102). -/
theorem eanChecksum_readsOnly (pay : List Character) :
    ReadsOnly Work.out (eanChecksum pay) fun w => (w.regs.dig, w.out) := by
  have hstrip : ReadsOnly Work.out (fun w => pure (strip pay w)) fun w => (w.regs.ndig, w.regs.d, w.out) :=
    .pure fun _ _ hout => congrArg
      (fun out => (BitVec.ofNat 24 (digitsOf pay).length, digitsOf pay, out)) hout
  exact (hstrip.bind checkLength_readsOnly).bind truncate_checkDigit_readsOnly

/-- Parity selection writes all of PAR from DIG[0] (R125). -/
theorem selectParity_readsOnly :
    ReadsOnly (fun w => (w.regs.dig, w.out)) selectParity fun w => ((w.regs.dig, w.regs.par), w.out) := by
  rintro ⟨r, out⟩ ⟨t, _⟩ hseen
  obtain ⟨hdig, rfl⟩ := Prod.mk.inj hseen
  simp only [selectParity, show r.dig = t.dig from hdig]
  cases romRead parityRom t.dig[0].toNat <;> rfl

/-- Bit assembly reads DIG and PAR alone (R126). -/
theorem assembleEan_readsOnly :
    ReadsOnly (fun w => ((w.regs.dig, w.regs.par), w.out)) (fun w => assembleEan w >>= fun b => pure (w, b))
      fun x => (x.1.out, x.2) := by
  rintro ⟨r, out⟩ ⟨t, _⟩ hseen
  obtain ⟨hregs, rfl⟩ := Prod.mk.inj hseen
  obtain ⟨hdig, hpar⟩ := Prod.mk.inj hregs
  have hbits : assembleEan ⟨r, out⟩ = assembleEan ⟨t, out⟩ := by
    simp only [assembleEan, show r.dig = t.dig from hdig, show r.par = t.par from hpar]
  simp only [hbits]
  cases assembleEan ⟨t, out⟩ <;> rfl

theorem eanPattern_readsOnly (pay : List Character) :
    ReadsOnly Work.out (eanPattern pay) fun x => (x.1.out, x.2) :=
  (eanChecksum_readsOnly pay).bind (selectParity_readsOnly.bind assembleEan_readsOnly)

/-! ### Code128-B -/

/-- The registers the weighting loop hands on: POS is set anew at each element (R144). -/
def weightView (r : Registers) : BitVec 24 × List SymbolValue × BitVec 64 := (r.n, r.sym, r.acc)

theorem weigh_weightView (vs : List SymbolValue) (k : Nat) {r t : Registers} (h : weightView r = weightView t) :
    weightView (weigh k vs r) = weightView (weigh k vs t) := by
  induction vs generalizing k r t with
  | nil => exact h
  | cons v vs ih =>
    simp only [weightView, Prod.mk.injEq] at h
    obtain ⟨hn, hsym, hacc⟩ := h
    exact ih (k + 1) (by simp only [weightView, hn, hsym, hacc])

/-- The weighted sum sets ACC before it reads it (R144). -/
theorem weightedSum_weightView {w v : Work} (hn : w.regs.n = v.regs.n) (hsym : w.regs.sym = v.regs.sym) :
    weightView (weightedSum w).regs = weightView (weightedSum v).regs := by
  simp only [weightedSum, hn, hsym]
  exact weigh_weightView _ 0 rfl

/-- What bit assembly and the response see of the checksum unit's work. -/
def c128View (w : Work) : (BitVec 24 × List SymbolValue × SymbolValue) × Draft :=
  ((w.regs.n, w.regs.sym, w.regs.chk103), w.out)

/-- The mapper and checksum unit writes N and SYM before it reads them (R141 to R149). -/
theorem c128Checksum_view (pay : List Character) {w v : Work} (hout : w.out = v.out) :
    c128View (c128Checksum pay w) = c128View (c128Checksum pay v) := by
  have hsum := weightedSum_weightView (w := mapSymbols pay (countCharacters pay w))
    (v := mapSymbols pay (countCharacters pay v)) rfl rfl
  simp only [weightView, Prod.mk.injEq] at hsum
  obtain ⟨hn, hsym, hacc⟩ := hsum
  have hkept : (weightedSum (mapSymbols pay (countCharacters pay w))).out =
      (weightedSum (mapSymbols pay (countCharacters pay v))).out := hout
  simp only [c128View, c128Checksum, c128Text, checkSymbol, Work.emitText, Work.setChecksum, hn, hsym, hacc, hkept]

theorem c128Checksum_readsOnly (pay : List Character) :
    ReadsOnly Work.out (fun w => .ok (c128Checksum pay w)) c128View :=
  .pure fun _ _ => c128Checksum_view pay

/-- The bits of symbols do not depend on the registers: each walk starts POL anew (R163). -/
theorem drawSymbols_readsOnly (vs : List Nat) : ReadsOnly (fun _ => ()) (drawSymbols vs) Prod.snd := by
  induction vs with
  | nil => exact fun _ _ _ => rfl
  | cons v vs ih =>
    intro r t _
    simp only [drawSymbols]
    cases romRead patternRom v with
    | error x => rfl
    | ok widths =>
      have hjoin : ReadsOnly Prod.snd
          (fun x : Registers × List Bit => pure (x.1, (w2b widths).2 ++ x.2)) Prod.snd :=
        .pure fun _ _ hbits => congrArg ((w2b widths).2 ++ ·) hbits
      exact ih.bind hjoin (a := { r with pol := (w2b widths).1 }) (b := { t with pol := (w2b widths).1 }) rfl

/-- Bit assembly reads N, SYM and CHK103 alone (R166, R167). -/
theorem assembleC128_readsOnly : ReadsOnly c128View assembleC128 fun x => (x.1.out, x.2) := by
  rintro ⟨r, out⟩ ⟨t, _⟩ hseen
  obtain ⟨hregs, rfl⟩ := Prod.mk.inj hseen
  simp only [Prod.mk.injEq] at hregs
  obtain ⟨hn, hsym, hchk⟩ := hregs
  have hquiet : ReadsOnly Prod.snd
      (fun x : Registers × List Bit => pure (Work.mk x.1 out, rep false 10 ++ x.2 ++ rep false 10))
      fun x => (x.1.out, x.2) :=
    .pure fun _ _ hbits => congrArg (fun bits => (out, rep false 10 ++ bits ++ rep false 10)) hbits
  simp only [assembleC128, hn, hsym, hchk]
  exact (drawSymbols_readsOnly _).bind hquiet (a := r) (b := t) rfl

theorem c128Pattern_readsOnly (pay : List Character) :
    ReadsOnly Work.out (c128Pattern pay) fun x => (x.1.out, x.2) :=
  (c128Checksum_readsOnly pay).bind assembleC128_readsOnly

/-! ### The composer, and the encoders' ends -/

/-- The composer writes PADDED, NG and GRP before it reads them (R180 to R185). -/
theorem composePattern_out_congr (p : List Bit) (mw h : Px) {w v : Work} (hout : w.out = v.out) :
    (composePattern p mw h w).out = (composePattern p mw h v).out := by
  simp only [composePattern, emitDescriptors, group, pad, Work.emitTiles, hout]

/-- A pattern goes to BITS (R127, R168). -/
theorem emitBits_readsOnly :
    ReadsOnly (fun x : Work × List Bit => (x.1.out, x.2)) (fun x => pure (x.1.emitBits x.2)) Work.out :=
  .pure fun x y hxy => by
    obtain ⟨hout, hbits⟩ := Prod.mk.inj hxy
    simp only [Work.emitBits, hout, hbits]

/-- A pattern goes to the composer (R202, R203). -/
theorem composePattern_readsOnly (mw h : Px) :
    ReadsOnly (fun x : Work × List Bit => (x.1.out, x.2)) (fun x => pure (composePattern x.2 mw h x.1))
      Work.out :=
  .pure fun x y hxy => by
    obtain ⟨hout, hbits⟩ := Prod.mk.inj hxy
    rw [show x.2 = y.2 from hbits]
    exact composePattern_out_congr y.2 mw h hout

/-! ### The instructions -/

/-- Settles O9: every stage reads only what the operation has written, so the outcome is the same from every
state; the operations of R74 are refused by their operands, and UNSUP reads nothing at all. -/
theorem responseIsAFunctionOfTheRequest : Obligations.ResponseIsAFunctionOfTheRequest := by
  intro i
  show OneOutcome (exec i)
  cases i with
  | renEan13 mw h pay =>
    exact oneOutcome_requireDimensions mw h
      (oneOutcome_finish ((eanPattern_readsOnly pay).bind (composePattern_readsOnly mw h)))
  | renC128 mw h pay =>
    exact oneOutcome_requireDimensions mw h
      (oneOutcome_finish ((c128Pattern_readsOnly pay).bind (composePattern_readsOnly mw h)))
  | encEan13 mw h pay => exact oneOutcome_finish ((eanPattern_readsOnly pay).bind emitBits_readsOnly)
  | encC128 mw h pay => exact oneOutcome_finish ((c128Pattern_readsOnly pay).bind emitBits_readsOnly)
  | chkEan13 mw h pay => exact oneOutcome_finish ((eanChecksum_readsOnly pay).comp Prod.snd)
  | chkC128 mw h pay =>
    exact oneOutcome_finish (.pure fun _ _ hout => congrArg Prod.snd (c128Checksum_view pay hout))
  | compose mw h pay =>
    exact oneOutcome_requireDimensions mw h
      (oneOutcome_finish (.pure fun _ _ => composePattern_out_congr pay mw h))
  | unsupRen23 | unsupRen47 | unsupRen8F | unsupEnc23 | unsupEnc47 | unsupEnc8F | unsupChk23 | unsupChk47
  | unsupChk8F | unsupCompose1 | unsupCompose23 | unsupCompose47 | unsupCompose8F | unsupFn47 | unsupFn8B
  | unsupFnCF => exact oneOutcome_unsupported

end Sys2Proof.Machine
end

