-- ==== Sys2Proof/Proofs/FieldPlacement.lean ====
section
/-! PROOFS. Where the fields of the header word and of a tile descriptor stand (R71, R78, R80). -/

namespace Sys2Proof

/-! ### The header word -/

/-- The header word as a number (R71). -/
theorem Header.pack_toNat (op : BitVec 8) (mw h : Px) (len : BitVec 24) :
    (Header.pack op mw h len).toNat = op.toNat + mw.toNat * 2 ^ 8 + h.toNat * 2 ^ 24 + len.toNat * 2 ^ 40 := by
  show (len ++ h ++ mw ++ op : BitVec (24 + 16 + 16 + 8)).toNat = _
  rw [BitVec.toNat_append, BitVec.toNat_append, BitVec.toNat_append, ← Nat.shiftLeft_add_eq_or_of_lt h.isLt,
    ← Nat.shiftLeft_add_eq_or_of_lt mw.isLt, ← Nat.shiftLeft_add_eq_or_of_lt op.isLt]
  simp only [Nat.shiftLeft_eq]
  omega

theorem Header.op_toNat (hdr : BitVec 64) : (Header.op hdr).toNat = hdr.toNat % 2 ^ 8 := by
  rw [Header.op, BitVec.extractLsb'_toNat, Nat.shiftRight_zero]

theorem Header.mw_toNat (hdr : BitVec 64) : (Header.mw hdr).toNat = hdr.toNat / 2 ^ 8 % 2 ^ 16 := by
  rw [Header.mw, BitVec.extractLsb'_toNat, Nat.shiftRight_eq_div_pow]

theorem Header.h_toNat (hdr : BitVec 64) : (Header.h hdr).toNat = hdr.toNat / 2 ^ 24 % 2 ^ 16 := by
  rw [Header.h, BitVec.extractLsb'_toNat, Nat.shiftRight_eq_div_pow]

/-- LEN reaches to the top of the word: nothing stands above it. -/
theorem Header.len_toNat (hdr : BitVec 64) : (Header.len hdr).toNat = hdr.toNat / 2 ^ 40 := by
  rw [Header.len, BitVec.extractLsb'_toNat, Nat.shiftRight_eq_div_pow]
  exact Nat.mod_eq_of_lt (Nat.div_lt_of_lt_mul hdr.isLt)

theorem Op.fmt_toNat (op : BitVec 8) : (Op.fmt op).toNat = op.toNat % 2 ^ 4 := by
  rw [Op.fmt, BitVec.extractLsb'_toNat, Nat.shiftRight_zero]

theorem Op.fn_toNat (op : BitVec 8) : (Op.fn op).toNat = op.toNat / 2 ^ 4 := by
  rw [Op.fn, BitVec.extractLsb'_toNat, Nat.shiftRight_eq_div_pow]
  exact Nat.mod_eq_of_lt (Nat.div_lt_of_lt_mul op.isLt)

/-- Settles O15: the packed word as a sum, and each field as a quotient and remainder of the word. -/
theorem headerFieldsArePlaced : Obligations.HeaderFieldsArePlaced := by
  refine ⟨Header.pack_toNat, fun hdr => ⟨Header.op_toNat hdr, Header.mw_toNat hdr, Header.h_toNat hdr,
    Header.len_toNat hdr, ?_, ?_⟩⟩
  · rw [Op.fmt_toNat, Header.op_toNat]
    omega
  · rw [Op.fn_toNat, Header.op_toNat]
    omega

/-! ### The tile descriptor -/

namespace Machine

/-- `5 * MW` fits the 19 bits of WPX (R81). -/
theorem tileWidth_toNat (mw : Px) : (tileWidth mw).toNat = 5 * mw.toNat := by
  have := mw.isLt
  rw [tileWidth, BitVec.toNat_ofNat]
  omega

variable (g : Group) (x : BitVec 19) (y : Px)

theorem Tile.ref_tileWord : Tile.ref (tileWord g x y) = g := by
  apply BitVec.eq_of_getLsbD_eq
  intro i hi
  simp [Tile.ref, getLsbD_tileWord, hi]

theorem Tile.wpx_tileWord : Tile.wpx (tileWord g x y) = x := by
  apply BitVec.eq_of_getLsbD_eq
  intro i hi
  have hbelow : 5 + i < 24 := by omega
  simp [Tile.wpx, getLsbD_tileWord, hi, hbelow]

theorem Tile.hpx_tileWord : Tile.hpx (tileWord g x y) = y := by
  apply BitVec.eq_of_getLsbD_eq
  intro i hi
  have habove : ¬ 24 + i < 5 := by omega
  simp [Tile.hpx, getLsbD_tileWord, hi, habove]

end Machine

open Machine in
/-- Settles O57: each field of a descriptor is read back as it was put there, and WPX does not wrap. -/
theorem descriptorFieldsArePlaced : Obligations.DescriptorFieldsArePlaced := fun g mw h =>
  ⟨tileWord_toNat g mw h, Tile.ref_tileWord g (tileWidth mw) h,
    (congrArg BitVec.toNat (Tile.wpx_tileWord g (tileWidth mw) h)).trans (tileWidth_toNat mw),
    Tile.hpx_tileWord g (tileWidth mw) h⟩

end Sys2Proof
end

