-- ==== Sys2Proof/Proofs/OperationCodes.lean ====
section
/-! PROOFS. What the decoder makes of LEN and of each operation code (R73, R82 to R84), and which operations look
at MW and H (R74). -/

namespace Sys2Proof

/-! ### LEN against the payload -/

/-- A header packed with the right LEN decodes as its OP says. -/
theorem decode_pack {len : BitVec 24} {pay : Payload} (hlen : pay.length = len.toNat) (op : BitVec 8) (mw h : Px) :
    decode ⟨Header.pack op mw h len, pay⟩ = decodeOp op mw h pay := by
  simp only [decode, Header.len_pack, Header.op_pack, Header.mw_pack, Header.h_pack, if_pos hlen]

theorem decodeOp_chars {op : BitVec 8} (hop : op ≠ 0x30) (mw h : Px) (cs : List Character) :
    decodeOp op mw h (.chars cs) = .ok (decodeChars op mw h cs) :=
  if_neg hop

theorem decodeOp_bits (mw h : Px) (bs : List Bit) : decodeOp 0x30 mw h (.bits bs) = .ok (.compose mw h bs) :=
  rfl

namespace Machine

theorem step_of_length_ne {s : State} {r : Request} (hrun : s.resetIn = false) (hreq : s.req = some r)
    (hlen : r.pay.length ≠ (Header.len r.hdr).toNat) : step s = .refused .lengthMismatch := by
  have hdecode : decode r = .error .lengthMismatch := if_neg hlen
  simp [step, hrun, hreq, hdecode]

end Machine

/-- Settles O5: the length test comes first in the decoder, LEN has 24 bits, and an empty payload passes the test
with LEN = 0 whatever the operation. -/
theorem lengthMustMatchPayload : Obligations.LengthMustMatchPayload := by
  refine ⟨fun _ _ => Machine.step_of_length_ne, fun hdr => Nat.le_of_lt_succ (Header.len hdr).isLt, fun op mw h => ?_⟩
  by_cases hop : op = 0x30
  · subst hop
    exact ⟨.compose mw h [], (decode_pack rfl _ mw h).trans (decodeOp_bits mw h [])⟩
  · rw [if_neg hop]
    exact ⟨decodeChars op mw h [], (decode_pack rfl op mw h).trans (decodeOp_chars hop mw h [])⟩

/-! ### The operation codes without an operation -/

/-- OP is FN above FMT (R80). -/
theorem Op.fn_append_fmt (op : BitVec 8) : Op.fn op ++ Op.fmt op = op := by
  apply BitVec.eq_of_getLsbD_eq
  intro i hi
  rw [BitVec.getLsbD_append]
  by_cases hlow : i < 4
  · simp [Op.fmt, hlow]
  · have hhigh : i - 4 < 4 := by omega
    have hsum : 4 + (i - 4) = i := by omega
    simp [Op.fn, hlow, hhigh, hsum]

namespace Machine

section Unsupported

variable {fmt : BitVec 4} (mw h : Px) (cs : List Character)

theorem exec_decodeRen (h0 : fmt ≠ 0) (h1 : fmt ≠ 1) : exec (decodeRen fmt mw h cs) = unsupported := by
  rw [decodeRen, if_neg h0, if_neg h1]
  split_ifs <;> rfl

theorem exec_decodeEnc (h0 : fmt ≠ 0) (h1 : fmt ≠ 1) : exec (decodeEnc fmt mw h cs) = unsupported := by
  rw [decodeEnc, if_neg h0, if_neg h1]
  split_ifs <;> rfl

theorem exec_decodeChk (h0 : fmt ≠ 0) (h1 : fmt ≠ 1) : exec (decodeChk fmt mw h cs) = unsupported := by
  rw [decodeChk, if_neg h0, if_neg h1]
  split_ifs <;> rfl

theorem exec_decodeReservedCompose (fmt : BitVec 4) : exec (decodeReservedCompose fmt mw h cs) = unsupported := by
  rw [decodeReservedCompose]
  split_ifs <;> rfl

/-- Outside the seven codes of R82, FN 0 to 2 come with an FMT other than 0 and 1, and every other FN is reserved
(R83, R84). -/
theorem exec_decodeChars {op : BitVec 8} (hop : op ∉ [0x00#8, 0x01#8, 0x10#8, 0x11#8, 0x20#8, 0x21#8, 0x30#8]) :
    exec (decodeChars op mw h cs) = unsupported := by
  rw [← Op.fn_append_fmt op] at hop
  have other {fn fmt : BitVec 4} (hfn : Op.fn op = fn)
      (hmem : fn ++ fmt ∈ [0x00#8, 0x01#8, 0x10#8, 0x11#8, 0x20#8, 0x21#8, 0x30#8]) : Op.fmt op ≠ fmt :=
    fun hfmt => hop (hfn ▸ hfmt ▸ hmem)
  simp only [decodeChars]
  split_ifs with hren henc hchk
  · exact exec_decodeRen mw h cs (other hren (by decide)) (other hren (by decide))
  · exact exec_decodeEnc mw h cs (other henc (by decide)) (other henc (by decide))
  · exact exec_decodeChk mw h cs (other hchk (by decide)) (other hchk (by decide))
  · exact exec_decodeReservedCompose mw h cs (Op.fmt op)
  all_goals rfl

theorem decodeOp_unsupported {op : BitVec 8} (hop : op ∉ [0x00#8, 0x01#8, 0x10#8, 0x11#8, 0x20#8, 0x21#8, 0x30#8]) :
    ∃ i, decodeOp op mw h (.chars cs) = .ok i ∧ exec i = unsupported :=
  have hcompose : op ≠ 0x30 := by rintro rfl; exact hop (by decide)
  ⟨decodeChars op mw h cs, decodeOp_chars hcompose mw h cs, exec_decodeChars mw h cs hop⟩

end Unsupported

end Machine

open Machine

/-- Settles O16: what any other code decodes to is executed as UNSUP. -/
theorem otherOperationCodesAreUnsupported : Obligations.OtherOperationCodesAreUnsupported := by
  intro op hop mw h cs s
  obtain ⟨i, hi, hexec⟩ := decodeOp_unsupported mw h cs hop
  exact ⟨i, hi, congrFun hexec s⟩

/-- Settles O23: REN and COMPOSE begin with the contract of R74, CHK and ENC are not handed MW and H, and UNSUP is
one operation for all requests. -/
theorem dimensionsAreRequiredOrIgnored : Obligations.DimensionsAreRequiredOrIgnored := by
  refine ⟨fun mw h cs bs s hz => ?required, fun mw h mw' h' cs s => ?ignored,
    fun op hop mw h mw' h' cs s => ?unsupported⟩
  case required =>
    exact ⟨requireDimensions_of_zero hz _, requireDimensions_of_zero hz _, requireDimensions_of_zero hz _⟩
  case ignored => exact ⟨rfl, rfl, rfl, rfl⟩
  case unsupported =>
    obtain ⟨i, hi, hexec⟩ := decodeOp_unsupported mw h cs hop
    obtain ⟨j, hj, hexec'⟩ := decodeOp_unsupported mw' h' cs hop
    exact ⟨i, j, hi, hj, congrFun (hexec.trans hexec'.symm) s⟩

end Sys2Proof
end

