-- ==== Sys2Proof/Proofs/Ean13Checksum.lean ====
section
/-! PROOFS. The EAN-13 checksum calculator (spec/40_ean13_checksum.md): what strip and the check digit write, when
the EAN-13 operations answer InvalidInput, and what CHK.EAN13 answers otherwise (R101 to R111). -/

namespace Sys2Proof.Machine

/-! ### Strip (R102) -/

/-- NDIG has LENW bits, so a count within NMAX does not wrap. -/
theorem strip_ndig_toNat {pay : List Character} (hn : pay.length ≤ Config.nmax) (w : Work) :
    (strip pay w).regs.ndig.toNat = (Spec.digits pay).length := by
  have hle := digitsOf_length_le pay
  rw [Config.nmax] at hn
  calc (BitVec.ofNat 24 (digitsOf pay).length).toNat
    _ = (digitsOf pay).length := Nat.mod_eq_of_lt (by omega)
    _ = (Spec.digits pay).length := digitsOf_length pay

/-- Settles O24: D is read off by the recursion of the payload, and NDIG counts without wrapping. -/
theorem stripWritesDigitRegisters : Obligations.StripWritesDigitRegisters := fun pay w hn =>
  ⟨digitsOf_toNat pay, strip_ndig_toNat hn w, digitsOf_length pay ▸ digitsOf_length_le pay, rfl⟩

/-! ### The sums, the total and the check digit (R105 to R108) -/

/-- Six decimal digits sum to at most 54, which fits the 6 bits of SUMO and SUME. -/
theorem ofNat_sum_of_six_digits {a b c d e f : Nat} (ha : a ≤ 9) (hb : b ≤ 9) (hc : c ≤ 9) (hd : d ≤ 9)
    (he : e ≤ 9) (hf : f ≤ 9) :
    (BitVec.ofNat 6 (a + b + c + d + e + f)).toNat = a + b + c + d + e + f ∧
    (BitVec.ofNat 6 (a + b + c + d + e + f)).toNat ≤ 54 := by
  rw [BitVec.toNat_ofNat]
  omega

/-- Sums within their bounds give a total of at most 4 * 54, which fits TOT. -/
theorem total_exact {w : Work} (ho : w.regs.sumo.toNat ≤ 54) (he : w.regs.sume.toNat ≤ 54) :
    (total w).regs.tot.toNat = 3 * w.regs.sume.toNat + w.regs.sumo.toNat ∧ (total w).regs.tot.toNat ≤ 216 := by
  have hexact : (total w).regs.tot.toNat = 3 * w.regs.sume.toNat + w.regs.sumo.toNat :=
    Nat.mod_eq_of_lt (by omega)
  exact ⟨hexact, by omega⟩

/-- The check digit is a decimal digit whatever TOT holds, so CHK10 does not wrap. -/
theorem checkDigit_exact (w : Work) :
    (checkDigit w).regs.chk10.toNat =
      (if w.regs.tot.toNat % 10 ≠ 0 then 10 - w.regs.tot.toNat % 10 else 0) ∧
    (checkDigit w).regs.chk10.toNat ≤ 9 := by
  simp only [checkDigit, BitVec.toNat_ofNat]
  split_ifs <;> omega

/-- Settles O26: each register's bound lets the next one be exact; what each stage writes is seen by unfolding. -/
theorem checkDigitRegistersAreExact : Obligations.CheckDigitRegistersAreExact := by
  intro w h9
  have digit (k : Nat) (hk : k < 12 := by decide) : w.regs.dig[k].toNat ≤ 9 := h9 k hk
  obtain ⟨hsumo, hsumo54⟩ := ofNat_sum_of_six_digits (digit 0) (digit 2) (digit 4) (digit 6) (digit 8) (digit 10)
  obtain ⟨hsume, hsume54⟩ := ofNat_sum_of_six_digits (digit 1) (digit 3) (digit 5) (digit 7) (digit 9) (digit 11)
  obtain ⟨htot, htot216⟩ := total_exact (w := sums w) hsumo54 hsume54
  obtain ⟨hchk, hchk9⟩ := checkDigit_exact (total (sums w))
  exact ⟨(sums w).regs.sumo, (sums w).regs.sume, (total (sums w)).regs.tot,
    (checkDigit (total (sums w))).regs.chk10, rfl, hsumo, hsume, htot, hchk, hsumo54, hsume54, htot216, hchk9⟩

/-! ### The outcomes of the EAN-13 operations (R103, R110, R111) -/

/-- The length check ends the checksum calculator before it reads D. -/
theorem eanChecksum_of_short {pay : List Character} (hn : pay.length ≤ Config.nmax)
    (hshort : (Spec.digits pay).length < 12) (w : Work) :
    eanChecksum pay w = .error (.raise .invalidInput) := by
  rw [eanChecksum, checkLength_strip hn, if_pos hshort]
  rfl

theorem eanPattern_of_short {pay : List Character} (hn : pay.length ≤ Config.nmax)
    (hshort : (Spec.digits pay).length < 12) (w : Work) :
    eanPattern pay w = .error (.raise .invalidInput) := by
  rw [eanPattern, eanChecksum_of_short hn hshort]
  rfl

theorem responseOf_finish_ok_status (s : State) (w : Work) :
    (responseOf (s.finish (.ok w))).map Response.status = some statusOk :=
  congrArg some (Draft.respond_status statusOk w.out)

/-- Settles O21: the three operations begin with the checksum calculator, whose length check raises the only error
there is; past it the pattern is assembled without a stop. -/
theorem tooFewDigitsIsInvalidInput : Obligations.TooFewDigitsIsInvalidInput := by
  refine fun mw h pay s hn => ⟨fun hshort => ?short, fun henough => ?enough⟩
  case short =>
    have hchecksum := eanChecksum_of_short hn hshort s.begin
    have hpattern := eanPattern_of_short hn hshort s.begin
    refine ⟨?_, ?_, fun hm hh => ?_⟩
    · simp only [exec, execChkEan13, hchecksum, State.finish]
    · simp only [exec, execEncEan13, hpattern]
      rfl
    · simp only [exec, execRenEan13, requireDimensions_of_pos hm hh, hpattern]
      rfl
  case enough =>
    obtain ⟨u, hchecksum, -⟩ := eanChecksum_ok hn henough s.begin
    obtain ⟨v, hpattern, -⟩ := eanPattern_ok hn henough s.begin
    refine ⟨?_, ?_, fun hm hh => ?_⟩
    · simp only [exec, execChkEan13, hchecksum]
      exact responseOf_finish_ok_status s u
    · simp only [exec, execEncEan13, hpattern]
      exact responseOf_finish_ok_status s _
    · simp only [exec, execRenEan13, requireDimensions_of_pos hm hh, hpattern]
      exact responseOf_finish_ok_status s _

/-- Settles O29: the checksum calculator fills CHECKSUM and TEXT of an empty response and nothing else. -/
theorem chkEan13AnswersCheckDigitAndText : Obligations.ChkEan13AnswersCheckDigitAndText := by
  intro mw h pay s hn h12
  obtain ⟨v, hv, hout, -⟩ := eanChecksum_ok hn h12 s.begin
  simp only [exec, execChkEan13, hv, State.finish, hout]
  rfl

end Sys2Proof.Machine
end

