-- ==== Sys2Proof/Proofs/Ean13Bitgen.lean ====
section
/-! PROOFS. The EAN-13 bit-pattern generator (spec/41_ean13_bitgen.md): what ENC.EAN13 answers (R126, R127), where
each code and guard stands in its 95 bits (R129), and the relations among the tables (R124). -/

namespace Sys2Proof

/-! ### Sequences made of blocks of one length -/

theorem map_length_eq_replicate {α : Type} {n : Nat} {blocks : List (List α)} (hn : ∀ b ∈ blocks, b.length = n) :
    blocks.map List.length = List.replicate blocks.length n := by
  simpa [List.eq_replicate_iff] using hn

theorem length_flatten_of_forall_length {α : Type} {n : Nat} {blocks : List (List α)}
    (hn : ∀ b ∈ blocks, b.length = n) : blocks.flatten.length = blocks.length * n := by
  rw [List.length_flatten, map_length_eq_replicate hn, List.sum_replicate_nat]

/-- Block `j` begins where the `j` blocks before it end. -/
theorem take_drop_flatten_of_forall_length {α : Type} {n : Nat} {blocks : List (List α)}
    (hn : ∀ b ∈ blocks, b.length = n) {j : Nat} (hj : j < blocks.length) :
    (blocks.flatten.drop (n * j)).take n = blocks[j] := by
  induction blocks generalizing j with
  | nil => cases hj
  | cons b blocks ih =>
    obtain ⟨hb, hrest⟩ := List.forall_mem_cons.mp hn
    cases j with
    | zero => simp [← hb]
    | succ j =>
      rw [List.flatten_cons, Nat.mul_succ, Nat.add_comm, ← hb, List.drop_length_add_append]
      exact hb ▸ ih hrest (Nat.lt_of_succ_lt_succ hj)

/-- A window that lies within the middle part sees nothing of what stands around it. -/
theorem take_drop_append_append {α : Type} (before within behind : List α) {i n : Nat}
    (h : i + n ≤ within.length) :
    ((before ++ within ++ behind).drop (before.length + i)).take n = (within.drop i).take n := by
  rw [List.append_assoc, List.drop_length_add_append, List.drop_append_of_le_length (by omega),
    List.take_append_of_le_length (by rw [List.length_drop]; omega)]

namespace Spec

open Machine

/-! ### The blocks of the pattern (R126) -/

@[simp] theorem length_msbFirst {n : Nat} (v : BitVec n) : (msbFirst v).length = n := by
  simp [msbFirst]

@[simp] theorem length_code (table : List (BitVec 7)) (d : Nat) : (code table d).length = 7 :=
  length_msbFirst _

/-- The code of a left digit: L or G as its parity bit says. -/
def leftCode (p : Bit) (d : Nat) : List Bit := code (if p then gRom else lRom) d

theorem leftCodes_eq_flatten (ps : List Bit) (ds : List Nat) :
    leftCodes ps ds = (List.zipWith leftCode ps ds).flatten := by
  induction ps generalizing ds with
  | nil => simp [leftCodes]
  | cons p ps ih =>
    cases ds with
    | nil => rfl
    | cons d ds => rw [leftCodes, ih]; rfl

theorem length_of_mem_zipWith_leftCode {ps : List Bit} {ds : List Nat} :
    ∀ b ∈ List.zipWith leftCode ps ds, b.length = 7 := by
  intro b hb
  obtain ⟨k, hk, rfl⟩ := List.mem_iff_getElem.mp hb
  rw [List.getElem_zipWith]
  exact length_code _ _

theorem length_leftCodes {ps : List Bit} {ds : List Nat} (h : ps.length = ds.length) :
    (leftCodes ps ds).length = ds.length * 7 := by
  rw [leftCodes_eq_flatten, length_flatten_of_forall_length length_of_mem_zipWith_leftCode, List.length_zipWith, h,
    Nat.min_self]

theorem take_drop_leftCodes {ps : List Bit} {ds : List Nat} {j : Nat} (hp : j < ps.length) (hd : j < ds.length) :
    ((leftCodes ps ds).drop (7 * j)).take 7 = leftCode (ps.getD j false) (ds.getD j 0) := by
  have hj : j < (List.zipWith leftCode ps ds).length := by rw [List.length_zipWith]; omega
  rw [leftCodes_eq_flatten, take_drop_flatten_of_forall_length length_of_mem_zipWith_leftCode hj,
    List.getElem_zipWith, List.getD_eq_getElem _ _ hp, List.getD_eq_getElem _ _ hd]

theorem length_of_mem_map_code {table : List (BitVec 7)} {ds : List Nat} :
    ∀ b ∈ ds.map (code table), b.length = 7 := by
  intro b hb
  obtain ⟨d, -, rfl⟩ := List.mem_map.mp hb
  exact length_code table d

theorem length_flatMap_code (table : List (BitVec 7)) (ds : List Nat) :
    (ds.flatMap (code table)).length = ds.length * 7 := by
  rw [List.flatMap_def, length_flatten_of_forall_length length_of_mem_map_code, List.length_map]

theorem take_drop_flatMap_code (table : List (BitVec 7)) {ds : List Nat} {j : Nat} (hj : j < ds.length) :
    ((ds.flatMap (code table)).drop (7 * j)).take 7 = code table (ds.getD j 0) := by
  have hj' : j < (ds.map (code table)).length := by rwa [List.length_map]
  rw [List.flatMap_def, take_drop_flatten_of_forall_length length_of_mem_map_code hj', List.getElem_map,
    List.getD_eq_getElem _ _ hj]

/-! ### The layout of the pattern (R129) -/

/-- The parity string that the leading digit selects (R125). -/
def parity (ds : List Nat) : List Bit := msbFirst (parityRom.getD (ds.getD 0 0) 0)

/-- The codes of d1 to d6 (R126). -/
def leftHalf (ds : List Nat) : List Bit := leftCodes (parity ds) ((ds.drop 1).take 6)

/-- The codes of d7 to d12 (R126). -/
def rightHalf (ds : List Nat) : List Bit := ((ds.drop 7).take 6).flatMap (code rRom)

/-- The parts of the pattern, left to right. -/
theorem eanBits_eq (ds : List Nat) :
    eanBits ds = [true, false, true] ++ leftHalf ds ++ [false, true, false, true, false] ++ rightHalf ds ++
      [true, false, true] := by
  cases ds <;> rfl

theorem take_eanBits (ds : List Nat) : (eanBits ds).take 3 = [true, false, true] := by
  simp [eanBits_eq]

section Layout

variable {ds : List Nat} (h : ds.length = 13)
include h

theorem length_leftHalf : (leftHalf ds).length = 42 := by
  have hsix : ((ds.drop 1).take 6).length = 6 := by simp [h]
  rw [leftHalf, length_leftCodes (by rw [hsix]; exact length_msbFirst _), hsix]

theorem length_rightHalf : (rightHalf ds).length = 42 := by
  rw [rightHalf, length_flatMap_code, List.length_take, List.length_drop, h]; rfl

theorem length_eanBits : (eanBits ds).length = 95 := by
  simp [eanBits_eq, length_leftHalf h, length_rightHalf h]

theorem take_drop_eanBits_centre :
    ((eanBits ds).drop 45).take 5 = [false, true, false, true, false] := by
  simp [eanBits_eq, length_leftHalf h]

theorem drop_eanBits : (eanBits ds).drop 92 = [true, false, true] := by
  rw [eanBits_eq]
  exact List.drop_left' (by simp [length_leftHalf h, length_rightHalf h])

theorem take_drop_eanBits_left {j : Nat} (hj : j < 6) :
    ((eanBits ds).drop (3 + 7 * j)).take 7 = leftCode ((parity ds).getD j false) (ds.getD (j + 1) 0) := by
  have hwithin : 7 * j + 7 ≤ (leftHalf ds).length := by rw [length_leftHalf h]; omega
  have hseven : (parity ds).length = 6 := length_msbFirst _
  calc ((eanBits ds).drop (3 + 7 * j)).take 7
    _ = ((leftHalf ds).drop (7 * j)).take 7 := by
      rw [eanBits_eq, List.append_assoc _ _ (rightHalf ds), List.append_assoc _ _ [true, false, true]]
      exact take_drop_append_append [true, false, true] (leftHalf ds) _ hwithin
    _ = leftCode ((parity ds).getD j false) (((ds.drop 1).take 6).getD j 0) :=
      take_drop_leftCodes (by omega) (by simp [h]; omega)
    _ = leftCode ((parity ds).getD j false) (ds.getD (j + 1) 0) := by
      simp [List.getD_eq_getElem?_getD, hj]

theorem take_drop_eanBits_right {j : Nat} (hj : j < 6) :
    ((eanBits ds).drop (50 + 7 * j)).take 7 = code rRom (ds.getD (7 + j) 0) := by
  have hwithin : 7 * j + 7 ≤ (rightHalf ds).length := by rw [length_rightHalf h]; omega
  have hbefore : ([true, false, true] ++ leftHalf ds ++ [false, true, false, true, false]).length = 50 := by
    simp [length_leftHalf h]
  calc ((eanBits ds).drop (50 + 7 * j)).take 7
    _ = ((rightHalf ds).drop (7 * j)).take 7 := by
      rw [eanBits_eq, ← hbefore]
      exact take_drop_append_append _ (rightHalf ds) _ hwithin
    _ = code rRom (((ds.drop 7).take 6).getD j 0) := take_drop_flatMap_code rRom (by simp [h]; omega)
    _ = code rRom (ds.getD (7 + j) 0) := by
      simp [List.getD_eq_getElem?_getD, hj]

end Layout

theorem length_eanDigits {pay : List Character} (h12 : 12 ≤ (digits pay).length) :
    (eanDigits pay).length = 13 := by
  simp [eanDigits, kept, h12]

end Spec

namespace Machine

/-! ### The obligations -/

/-- Settles O30: the shared steps fill CHECKSUM and TEXT and hand over the pattern, which ENC.EAN13 appends to the
still empty BITS. -/
theorem encEan13AnswersThePattern : Obligations.EncEan13AnswersThePattern := by
  intro mw h pay s hn h12
  obtain ⟨v, hv, hout⟩ := eanPattern_ok hn h12 s.begin
  calc exec (.encEan13 mw h pay) s
    _ = s.finish (.ok (v.emitBits (Spec.eanBits (Spec.eanDigits pay)))) := by
      simp only [exec, execEncEan13, hv]; rfl
    _ = .next (s.deliver ((v.emitBits (Spec.eanBits (Spec.eanDigits pay))).out.respond statusOk)) := rfl
    _ = .next (s.deliver (okResponse (Spec.eanCheck (Spec.kept pay)) (Spec.eanText pay)
        (Spec.eanBits (Spec.eanDigits pay)) [])) := by
      simp only [Work.emitBits, hout]; rfl

/-- Settles O34: the bits answered are LCW's pattern of the 13 digits (O30), whose parts have fixed lengths. -/
theorem eanPatternLayout : Obligations.EanPatternLayout := by
  intro mw h pay s hn h12
  have h13 := Spec.length_eanDigits h12
  refine ⟨_, congrArg responseOf (encEan13AnswersThePattern mw h pay s hn h12), Spec.length_eanBits h13,
    Spec.take_eanBits _, Spec.take_drop_eanBits_centre h13, Spec.drop_eanBits h13, fun j hj => ?_⟩
  exact ⟨Spec.take_drop_eanBits_left h13 hj, Spec.take_drop_eanBits_right h13 hj⟩

/-- Settles O55: the tables are the spec's printed values, ten entries each, and every relation is checked on them
(R124). -/
theorem eanTableRelations : Obligations.EanTableRelations := by
  refine ⟨rfl, rfl, rfl, rfl, ?relations, ?codesDistinct, ?parityDistinct⟩
  case relations => decide
  case codesDistinct => decide
  case parityDistinct => decide

end Machine

end Sys2Proof
end

