-- ==== Sys2Proof/Proofs/Code128Checksum.lean ====
section
/-! PROOFS. The Code128-B character mapper and checksum unit (spec/42_code128b_mapper_checksum.md): what each stage
writes (R141 to R145), what CHK.C128 answers (R149), and the checksum reduced as it goes (R147). -/

namespace Sys2Proof

namespace Spec

/-! ### LCW's formulas (R144, R145, R147) -/

/-- The positions `i + 1` to `i + n` sum to `n(2i + n + 1)/2`, and each carries a value of at most 95. -/
theorem two_mul_positionSum_le (i : Nat) (vs : List Nat) (h : ∀ v ∈ vs, v ≤ 95) :
    2 * positionSum (i + 1) vs ≤ 95 * (vs.length * (2 * i + vs.length + 1)) := by
  induction vs generalizing i with
  | nil => simp [positionSum]
  | cons v vs ih =>
    obtain ⟨hv, hvs⟩ := List.forall_mem_cons.mp h
    have hfirst : v * (i + 1) ≤ 95 * (i + 1) := Nat.mul_le_mul_right _ hv
    have hrest := ih (i + 1) hvs
    simp only [positionSum, List.length_cons]
    linarith

/-- The bound of R146. -/
theorem positionSum_one_le_triangle (vs : List Nat) (h : ∀ v ∈ vs, v ≤ 95) :
    positionSum 1 vs ≤ 95 * (vs.length * (vs.length + 1) / 2) := by
  have hdouble : 2 * positionSum 1 vs ≤ 95 * (vs.length * (vs.length + 1)) := by
    simpa using two_mul_positionSum_le 0 vs h
  have heven : vs.length * (vs.length + 1) / 2 * 2 = vs.length * (vs.length + 1) :=
    Nat.div_mul_cancel (Nat.even_mul_succ_self _).two_dvd
  omega

theorem c128Check_lt (pay : List Character) : c128Check pay < 103 := Nat.mod_lt _ (by decide)

/-- Reducing the sum and the position at every symbol leaves the residue of the sum. -/
theorem reducedCheck_mod (a i : Nat) (vs : List Nat) :
    reducedCheck (a % 103) i vs = (a + positionSum i vs) % 103 := by
  induction vs generalizing a i with
  | nil => rfl
  | cons v vs ih =>
    have hstep : (a % 103 + v * (i % 103) % 103) % 103 = (a + v * i) % 103 := by
      rw [← Nat.add_mod, Nat.add_mod, Nat.mul_mod_mod, ← Nat.add_mod]
    rw [reducedCheck, hstep, ih, positionSum, Nat.add_assoc]

end Spec

namespace Machine

/-! ### The stages (R141 to R145) -/

/-- N has LENW bits, so a count within NMAX does not wrap. -/
theorem countCharacters_n_toNat {pay : List Character} (hn : pay.length ≤ Config.nmax) (w : Work) :
    (countCharacters pay w).regs.n.toNat = pay.length := by
  rw [Config.nmax] at hn
  exact Nat.mod_eq_of_lt (by omega)

/-- Settles O36: N does not wrap, so the mapper takes the whole payload. -/
theorem mapperWritesSymbols : Obligations.MapperWritesSymbols := by
  intro pay w hn
  have hcount := countCharacters_n_toNat hn w
  refine ⟨(countCharacters pay w).regs.n, pay.map symbolValue, ?_, hcount, symbols_toNat pay⟩
  rw [mapSymbols, hcount, List.take_length]
  rfl

/-- With N of LENW bits the weighted sum stays far below 2^64 (R146). -/
theorem sum_add_triangle_lt (n : BitVec 24) : 104 + 95 * (n.toNat * (n.toNat + 1) / 2) < 2 ^ 64 := by
  have hsquare : n.toNat * (n.toNat + 1) ≤ 2 ^ 24 * 2 ^ 24 := Nat.mul_le_mul n.isLt.le n.isLt
  omega

/-- Settles O37: R146's bound on the sum keeps the loop from wrapping. -/
theorem weightedSumIsExact : Obligations.WeightedSumIsExact := by
  intro w hlen h95
  have hbound : Spec.positionSum 1 (w.regs.sym.map BitVec.toNat) ≤
      95 * (w.regs.n.toNat * (w.regs.n.toNat + 1) / 2) := by
    simpa [hlen] using Spec.positionSum_one_le_triangle (w.regs.sym.map BitVec.toNat) (by simpa using h95)
  have hfits := sum_add_triangle_lt w.regs.n
  have hnmax : 0 + w.regs.sym.length ≤ Config.nmax := by
    rw [Nat.zero_add, hlen]
    exact Nat.le_of_lt_succ w.regs.n.isLt
  obtain ⟨pos, acc, hweigh, hacc, hpos⟩ := weigh_exact 0 w.regs.sym { w.regs with acc := 104 } hnmax
    (Nat.lt_of_le_of_lt (Nat.add_le_add_left hbound 104) hfits)
  refine ⟨pos, acc, ?writes, hacc, hacc.trans_le (Nat.add_le_add_left hbound 104), fun hn => ?position⟩
  case writes =>
    rw [weightedSum, ← hlen, List.take_length, hweigh]
  case position =>
    have hsym : w.regs.sym ≠ [] := by
      intro hnil
      rw [hnil] at hlen
      exact hn (BitVec.eq_of_toNat_eq hlen.symm)
    rw [hpos, if_neg hsym, hlen, Nat.zero_add]

/-- Settles O38: a residue modulo 103 fits the 7 bits of CHK103 and CHECKSUM. -/
theorem checkSymbolIsSumModulo103 : Obligations.CheckSymbolIsSumModulo103 := by
  intro w
  have hlt : w.regs.acc.toNat % 103 < 103 := Nat.mod_lt _ (by decide)
  have hexact : (BitVec.ofNat 7 (w.regs.acc.toNat % 103)).toNat = w.regs.acc.toNat % 103 :=
    Nat.mod_eq_of_lt (by omega)
  exact ⟨BitVec.ofNat 7 (w.regs.acc.toNat % 103), rfl, hexact, by omega⟩

/-! ### What CHK.C128 answers (R147 to R149) -/

/-- Settles O40: the checksum unit fills CHECKSUM and TEXT of an empty response and nothing else. -/
theorem chkC128AnswersCheckSymbolAndText : Obligations.ChkC128AnswersCheckSymbolAndText := by
  intro mw h pay s hn
  obtain ⟨hout, -⟩ := c128Checksum_ok hn s.begin
  simp only [exec, execChkC128, State.finish, hout]
  rfl

/-- The check symbol value fits CHECKSUM (R76, R145). -/
theorem okResponse_c128Check_checksum (pay text : List Character) (bits : List Bit) (tiles : List TileWord) :
    (okResponse (Spec.c128Check pay) text bits tiles).checksum.toNat = Spec.c128Check pay := by
  have hlt := Spec.c128Check_lt pay
  rw [okResponse, Draft.respond_checksum]
  exact Nat.mod_eq_of_lt (by omega)

/-- Settles O43: CHK.C128 answers the residue of the whole sum, which reducing as it goes reaches too. -/
theorem reducedChecksumIsTheChecksum : Obligations.ReducedChecksumIsTheChecksum := by
  refine ⟨fun mw h pay s hn => ?checksum, fun a v i ha hv => ?bound⟩
  case checksum =>
    refine ⟨okResponse (Spec.c128Check pay) pay [] [], ?_, ?_⟩
    · rw [chkC128AnswersCheckSymbolAndText mw h pay s hn]
      rfl
    · rw [okResponse_c128Check_checksum, Spec.reducedCheck_mod]
      rfl
  case bound =>
    have hpos : i % 103 ≤ 102 := Nat.le_of_lt_succ (Nat.mod_lt i (by decide))
    have hterm : v * (i % 103) ≤ 95 * 102 := Nat.mul_le_mul hv hpos
    omega

end Machine

end Sys2Proof
end

