-- ==== Sys2Proof/Proofs/Code128Bitgen.lean ====
section
/-! PROOFS. The Code128-B bit-pattern generator (spec/43_code128b_bitgen.md): the pattern table (R162),
widths-to-bits (R163, R164), what ENC.C128 answers (R166 to R168) and where each symbol stands in it (R170). -/

namespace Sys2Proof

/-! ### The pattern table (R162) -/

namespace Machine

/-- Settles O56: the table is the spec's printed values, and each relation is checked on them. -/
theorem patternTableRelations : Obligations.PatternTableRelations := by
  refine ⟨rfl, ?sixWidths, rfl, rfl, ?widthRange, ?evenBarSum, ?distinct, ?unused⟩
  case sixWidths => decide
  case widthRange => decide
  case evenBarSum => decide
  case distinct => decide
  case unused => decide

theorem patternRom_sum {v : Nat} (hv : v < 106) : (patternRom.getD v []).sum = 11 := by
  obtain ⟨-, hsix, -⟩ := patternTableRelations
  exact (hsix v hv).2

/-! ### Widths to bits (R163, R164) -/

/-- One element more is one flip more. -/
theorem beq_even_length_cons (pol : Bit) (x : Nat) (ws : List Nat) :
    (pol == ((x :: ws).length % 2 == 0)) = ((!pol) == (ws.length % 2 == 0)) := by
  rcases Nat.mod_two_eq_zero_or_one ws.length with h | h <;> simp [Nat.add_mod, h]

/-- POL flips once per element: it ends as it began after an even number of them (R33). -/
theorem w2bFrom_fst (ws : List Nat) (pol : Bit) (out : List Bit) :
    (w2bFrom ws pol out).1 = (pol == (ws.length % 2 == 0)) := by
  induction ws generalizing pol out with
  | nil => simp [w2bFrom]
  | cons x ws ih => rw [w2bFrom, ih, beq_even_length_cons]

end Machine

namespace Spec

open Machine

theorem length_elements (bar : Bit) (ws : List Nat) : (elements bar ws).length = ws.sum := by
  induction ws generalizing bar with
  | nil => rfl
  | cons x ws ih => simp [elements, ih]

theorem head?_elements_cons {x : Nat} (hx : 1 ≤ x) (bar : Bit) (ws : List Nat) :
    (elements bar (x :: ws)).head? = some bar := by
  cases x with
  | zero => cases hx
  | succ x => rfl

/-- Elements go on with the polarity that those before them leave. -/
theorem elements_append (bar : Bit) (ws vs : List Nat) :
    elements bar (ws ++ vs) = elements bar ws ++ elements (bar == (ws.length % 2 == 0)) vs := by
  induction ws generalizing bar with
  | nil => simp [elements]
  | cons x ws ih => rw [List.cons_append, elements, elements, ih, beq_even_length_cons, List.append_assoc]

theorem getLast?_elements_concat {x : Nat} (hx : 1 ≤ x) (bar : Bit) (ws : List Nat) :
    (elements bar (ws ++ [x])).getLast? = some (bar == (ws.length % 2 == 0)) := by
  simp [elements_append, elements, List.getLast?_append, List.getLast?_replicate, Nat.ne_of_gt hx]

/-- Polarity alternates, so the run at the beginning is the first element and nothing of the second. -/
theorem takeWhile_elements_cons (bar : Bit) (x : Nat) {ws : List Nat} (hws : ∀ y ∈ ws, 1 ≤ y) :
    (elements bar (x :: ws)).takeWhile (· == bar) = List.replicate x bar := by
  have hnext : (elements (!bar) ws).takeWhile (· == bar) = [] := by
    cases ws with
    | nil => rfl
    | cons y ws =>
      obtain ⟨k, rfl⟩ := Nat.exists_eq_add_of_le' (hws y (by simp))
      simp [elements, List.replicate_succ]
  rw [elements, List.takeWhile_append_of_pos (by simp), hnext, List.append_nil]

/-- Widths are recovered by run-length counting (R164). -/
theorem elements_injective {bar : Bit} {ws vs : List Nat} (hws : ∀ x ∈ ws, 1 ≤ x) (hvs : ∀ x ∈ vs, 1 ≤ x)
    (h : elements bar ws = elements bar vs) : ws = vs := by
  induction ws generalizing bar vs with
  | nil =>
    cases vs with
    | nil => rfl
    | cons y vs =>
      have hhead := head?_elements_cons (hvs y (by simp)) bar vs
      rw [← h] at hhead
      cases hhead
  | cons x ws ih =>
    obtain ⟨hx, hws'⟩ := List.forall_mem_cons.mp hws
    cases vs with
    | nil =>
      have hhead := head?_elements_cons hx bar ws
      rw [h] at hhead
      cases hhead
    | cons y vs =>
      obtain ⟨-, hvs'⟩ := List.forall_mem_cons.mp hvs
      have hrun : List.replicate x bar = List.replicate y bar := by
        rw [← takeWhile_elements_cons bar x hws', h, takeWhile_elements_cons bar y hvs']
      obtain rfl : x = y := by simpa using congrArg List.length hrun
      exact congrArg (x :: ·) (ih hws' hvs' (List.append_cancel_left (by simpa only [elements] using h)))

theorem length_symbol {v : Nat} (hv : v < 106) : (symbol v).length = 11 :=
  (length_elements true _).trans (patternRom_sum hv)

end Spec

namespace Machine

/-- Settles O45: the walk is the alternation of elements (`w2bBits_eq`); the bits of the two fixed symbols are
computed from the table. -/
theorem widthsToBitsProperties : Obligations.WidthsToBitsProperties := by
  refine ⟨fun ws => ⟨?length, ?polarity⟩, fun x ws hx => ?first, fun ws x hx => ?last,
    fun ws vs hws hvs h => ?recovered, fun v hv => ?symbols, rfl, rfl⟩
  case length => rw [w2bBits_eq, Spec.length_elements]
  case polarity => rw [w2b, w2bFrom_fst, Bool.true_beq]
  case first => rw [w2bBits_eq, Spec.head?_elements_cons hx]
  case last => rw [w2bBits_eq, Spec.getLast?_elements_concat hx, Bool.true_beq]
  case recovered =>
    rw [w2bBits_eq, w2bBits_eq] at h
    exact Spec.elements_injective hws hvs h
  case symbols => rw [w2bBits_eq, Spec.length_elements, patternRom_sum hv]

/-! ### What ENC.C128 answers (R166 to R168) -/

/-- Settles O41: the shared steps fill CHECKSUM and TEXT and hand over the pattern, which ENC.C128 appends to the
still empty BITS. -/
theorem encC128AnswersThePattern : Obligations.EncC128AnswersThePattern := by
  intro mw h pay s hn
  obtain ⟨v, hv, hout⟩ := c128Pattern_ok hn s.begin
  calc exec (.encC128 mw h pay) s
    _ = s.finish (.ok (v.emitBits (Spec.c128Bits pay))) := by
      simp only [exec, execEncC128, hv]; rfl
    _ = .next (s.deliver (okResponse (Spec.c128Check pay) pay (Spec.c128Bits pay) [])) := by
      simp only [State.finish, Work.emitBits, hout]; rfl

end Machine

/-! ### The layout of the pattern (R170) -/

namespace Spec

open Machine

theorem symbols_le {pay : List Character} : ∀ v ∈ symbols pay, v ≤ 95 := by
  rw [← symbols_toNat, List.map_map]
  exact List.forall_mem_map.mpr fun c _ => symbolValue_le c

/-- The values whose symbols have 11 bits, in the order of the pattern: Start-Code-B, the data symbols and the check
symbol (R166). -/
def elevenBitValues (pay : List Character) : List Nat := 104 :: (symbols pay ++ [c128Check pay])

@[simp] theorem length_elevenBitValues (pay : List Character) : (elevenBitValues pay).length = pay.length + 2 := by
  simp [elevenBitValues, symbols]

theorem elevenBitValues_lt {pay : List Character} : ∀ v ∈ elevenBitValues pay, v < 106 := by
  have hcheck := c128Check_lt pay
  have hdata : ∀ v ∈ symbols pay, v < 106 := fun v hv => Nat.lt_of_le_of_lt (symbols_le v hv) (by decide)
  simp only [elevenBitValues, List.forall_mem_cons, List.forall_mem_append]
  exact ⟨by decide, hdata, by omega, by simp⟩

/-- The pattern between the quiet zones is blocks of 11 bits up to Stop. -/
theorem c128Bits_eq (pay : List Character) :
    c128Bits pay = rep false 10 ++ ((elevenBitValues pay).map symbol).flatten ++ (symbol 106 ++ rep false 10) := by
  simp only [c128Bits, elevenBitValues, List.flatMap_def, List.map_cons, List.map_append, List.map_nil,
    List.flatten_cons, List.flatten_append, List.flatten_nil, List.append_nil, List.append_assoc]

theorem length_of_mem_map_symbol {pay : List Character} : ∀ b ∈ (elevenBitValues pay).map symbol, b.length = 11 :=
  List.forall_mem_map.mpr fun v hv => length_symbol (elevenBitValues_lt v hv)

theorem length_flatten_map_symbol (pay : List Character) :
    ((elevenBitValues pay).map symbol).flatten.length = (pay.length + 2) * 11 := by
  rw [length_flatten_of_forall_length length_of_mem_map_symbol, List.length_map, length_elevenBitValues]

theorem length_c128Bits (pay : List Character) : (c128Bits pay).length = 11 * pay.length + 55 := by
  have hstop : (symbol 106).length = 13 := rfl
  rw [c128Bits_eq, List.length_append, List.length_append, length_flatten_map_symbol, List.length_append, hstop,
    List.length_replicate]
  omega

theorem take_c128Bits (pay : List Character) : (c128Bits pay).take 10 = rep false 10 := by
  rw [c128Bits_eq, List.append_assoc]
  exact List.take_left' rfl

theorem take_drop_c128Bits (pay : List Character) {j : Nat} (hj : j < pay.length + 2) :
    ((c128Bits pay).drop (10 + 11 * j)).take 11 = symbol ((elevenBitValues pay).getD j 0) := by
  have hwithin : 11 * j + 11 ≤ ((elevenBitValues pay).map symbol).flatten.length := by
    rw [length_flatten_map_symbol]; omega
  have hblock : j < ((elevenBitValues pay).map symbol).length := by simpa using hj
  calc ((c128Bits pay).drop (10 + 11 * j)).take 11
    _ = (((elevenBitValues pay).map symbol).flatten.drop (11 * j)).take 11 := by
      rw [c128Bits_eq]
      exact take_drop_append_append (rep false 10) _ _ hwithin
    _ = ((elevenBitValues pay).map symbol)[j] :=
      take_drop_flatten_of_forall_length length_of_mem_map_symbol hblock
    _ = symbol ((elevenBitValues pay).getD j 0) := by
      rw [List.getElem_map, List.getD_eq_getElem _ _ (by simpa using hj)]

theorem take_drop_c128Bits_start (pay : List Character) : ((c128Bits pay).drop 10).take 11 = symbol 104 :=
  take_drop_c128Bits pay (j := 0) (by omega)

theorem take_drop_c128Bits_data (pay : List Character) {i : Nat} (hi : i < pay.length) :
    ((c128Bits pay).drop (21 + 11 * i)).take 11 = symbol ((symbols pay).getD i 0) := by
  have hblock := take_drop_c128Bits pay (j := i + 1) (by omega)
  have hvalue : (elevenBitValues pay).getD (i + 1) 0 = (symbols pay).getD i 0 :=
    List.getD_append _ _ 0 i (by simpa [symbols] using hi)
  rwa [hvalue, show 10 + 11 * (i + 1) = 21 + 11 * i by omega] at hblock

theorem take_drop_c128Bits_check (pay : List Character) :
    ((c128Bits pay).drop (21 + 11 * pay.length)).take 11 = symbol (c128Check pay) := by
  have hblock := take_drop_c128Bits pay (j := pay.length + 1) (by omega)
  have hvalue : (elevenBitValues pay).getD (pay.length + 1) 0 = c128Check pay := by
    simp [elevenBitValues, symbols]
  rwa [hvalue, show 10 + 11 * (pay.length + 1) = 21 + 11 * pay.length by omega] at hblock

/-- Behind the check symbol stand Stop and the quiet zone. -/
theorem drop_c128Bits (pay : List Character) :
    (c128Bits pay).drop (32 + 11 * pay.length) = symbol 106 ++ rep false 10 := by
  rw [c128Bits_eq]
  refine List.drop_left' ?_
  rw [List.length_append, length_flatten_map_symbol, List.length_replicate]
  omega

theorem take_drop_c128Bits_stop (pay : List Character) :
    ((c128Bits pay).drop (32 + 11 * pay.length)).take 13 = symbol 106 := by
  rw [drop_c128Bits]
  exact List.take_left' rfl

theorem drop_c128Bits_quiet (pay : List Character) :
    (c128Bits pay).drop (45 + 11 * pay.length) = rep false 10 := by
  rw [show 45 + 11 * pay.length = 32 + 11 * pay.length + 13 by omega, ← List.drop_drop, drop_c128Bits]
  exact List.drop_left' rfl

end Spec

namespace Machine

/-- Settles O46: the bits answered are LCW's pattern of the payload (O41), in which everything from Start-Code-B to
the check symbol is a block of 11 bits. -/
theorem c128PatternLayout : Obligations.C128PatternLayout := by
  intro mw h pay s hn
  simp only [w2bBits_eq]
  refine ⟨_, congrArg responseOf (encC128AnswersThePattern mw h pay s hn), Spec.length_c128Bits pay,
    Spec.take_c128Bits pay, Spec.take_drop_c128Bits_start pay, fun i => Spec.take_drop_c128Bits_data pay, ?_,
    Spec.take_drop_c128Bits_stop pay, Spec.drop_c128Bits_quiet pay⟩
  rw [okResponse_c128Check_checksum]
  exact Spec.take_drop_c128Bits_check pay

end Machine

end Sys2Proof
end

