-- ==== Sys2Proof/Proofs/Composer.lean ====
section
/-! PROOFS. The bitmap tile composer (spec/44_composer.md): its registers (R180, R181), what COMPOSE answers (R188),
and what a host draws of the tiles (R187, R189, R190). -/

namespace Sys2Proof.Machine

/-! ### Padding and grouping (R180, R181) -/

theorem take_padRight (p : List Bit) : (padRight p).take p.length = p := by
  rw [padRight_eq, Spec.padded]
  exact List.take_left

theorem length_groupsOf_padRight (p : List Bit) : (groupsOf (padRight p)).length = Spec.tileCount p.length := by
  rw [groupsOf_length, padRight_length, Nat.mul_div_cancel_left _ (by decide)]

/-- The groups of the padded pattern by LCW's formula, where a missing module counts as 0. -/
theorem groupsOf_padRight_toNat (p : List Bit) :
    (groupsOf (padRight p)).map BitVec.toNat = (List.range (Spec.tileCount p.length)).map (Spec.groupValue p) := by
  have hvalue : Spec.groupValue (padRight p) = Spec.groupValue p := by
    rw [padRight_eq]
    exact funext (groupValue_padded p)
  rw [groupsOf_toNat, hvalue, padRight_length, Nat.mul_div_cancel_left _ (by decide)]

/-- The tile count of the longest pattern an encoder hands over fits the 32 bits of NG and NT. -/
theorem tileCount_toNat {n : Nat} (hn : n ≤ 11 * Config.nmax + 55) :
    (BitVec.ofNat 32 (Spec.tileCount n)).toNat = Spec.tileCount n := by
  rw [BitVec.toNat_ofNat]
  unfold Config.nmax at hn
  unfold Spec.tileCount
  omega

/-- Settles O48: NG does not wrap, so GRP keeps every group of the padded pattern. -/
theorem composerWritesGroups : Obligations.ComposerWritesGroups := by
  intro p w hn
  have hng : (padRight p).length / 5 = Spec.tileCount p.length := by
    rw [← groupsOf_length, length_groupsOf_padRight]
  have hall : (groupsOf (padRight p)).take (BitVec.ofNat 32 (Spec.tileCount p.length)).toNat = groupsOf (padRight p) := by
    rw [tileCount_toNat hn, ← length_groupsOf_padRight, List.take_length]
  refine ⟨BitVec.ofNat 32 (Spec.tileCount p.length), groupsOf (padRight p), ?_, tileCount_toNat hn,
    groupsOf_padRight_toNat p⟩
  simp only [group, pad, hng, hall]
  rw [padRight_eq]

/-! ### What COMPOSE answers (R188) -/

/-- Settles O49: the composer appends the descriptors to an empty response and fills nothing else. -/
theorem composeAnswersTheTiles : Obligations.ComposeAnswersTheTiles := by
  intro mw h p s hn hmw hh
  have hout := composePattern_out (Nat.le_trans hn (by omega)) mw h s.begin
  calc exec (.compose mw h p) s
    _ = s.finish (.ok (composePattern p mw h s.begin)) := requireDimensions_of_pos hmw hh _
    _ = .next (s.deliver (okResponse 0 [] [] (Spec.tiles p mw h))) := by
      simp only [State.finish, hout]; rfl

theorem responseOf_compose {mw h : Px} {p : List Bit} (s : State) (hn : p.length ≤ Config.nmax) (hmw : mw ≠ 0)
    (hh : h ≠ 0) : responseOf (exec (.compose mw h p) s) = some (okResponse 0 [] [] (Spec.tiles p mw h)) :=
  congrArg responseOf (composeAnswersTheTiles mw h p s hn hmw hh)

/-- LCW's descriptors are the words packed from the groups (R185). -/
theorem specTiles_eq_map_tileWord (p : List Bit) (mw h : Px) :
    Spec.tiles p mw h = (groupsOf (padRight p)).map fun g => tileWord g (tileWidth mw) h := by
  have hvalues := congrArg (List.map fun g => Spec.descriptor g mw.toNat h.toNat) (groupsOf_padRight_toNat p)
  simpa only [Spec.tiles, tileWord_eq, List.map_map, Function.comp_def] using hvalues.symm

theorem map_ref_specTiles (p : List Bit) (mw h : Px) :
    (Spec.tiles p mw h).map Tile.ref = groupsOf (padRight p) := by
  simp [specTiles_eq_map_tileWord, Function.comp_def, Tile.ref_tileWord]

theorem length_specTiles (p : List Bit) (mw h : Px) : (Spec.tiles p mw h).length = Spec.tileCount p.length := by
  rw [specTiles_eq_map_tileWord, List.length_map, length_groupsOf_padRight]

/-- Every descriptor is five modules wide and H high (R186). -/
theorem dimensions_of_mem_specTiles {p : List Bit} {mw h : Px} {t : TileWord} (ht : t ∈ Spec.tiles p mw h) :
    (Tile.wpx t).toNat = 5 * mw.toNat ∧ Tile.hpx t = h := by
  rw [specTiles_eq_map_tileWord] at ht
  obtain ⟨g, -, rfl⟩ := List.mem_map.mp ht
  exact ⟨by rw [Tile.wpx_tileWord, tileWidth_toNat], Tile.hpx_tileWord ..⟩

/-! ### The host's renderer (R183, R187, R190) -/

/-- The palette is complete: every reference resolves to the modules of its group (R183). -/
theorem romRead_tileRom (g : Group) : romRead tileRom g.toNat = .ok (modules g) := by
  have hlt : g.toNat < tileRom.length := g.isLt
  rw [romRead_of_lt hlt]
  simp [tileRom]

/-- A fragment shows the five modules its group was made of. -/
theorem modules_group (b0 b1 b2 b3 b4 : Bit) :
    modules (BitVec.ofNat 5 (16 * b0.toNat + 8 * b1.toNat + 4 * b2.toNat + 2 * b3.toNat + b4.toNat)) =
      [b0, b1, b2, b3, b4] := by
  revert b0 b1 b2 b3 b4
  decide

/-- Grouping loses nothing of a pattern of whole groups. -/
theorem flatMap_modules_groupsOf {p : List Bit} (hp : 5 ∣ p.length) : (groupsOf p).flatMap modules = p := by
  induction p using groupsOf.induct with
  | case1 b0 b1 b2 b3 b4 rest ih =>
    have hrest : 5 ∣ rest.length := (Nat.dvd_add_left (Nat.dvd_refl 5)).mp hp
    rw [groupsOf, List.flatMap_cons, modules_group, ih hrest]
    rfl
  | case2 p hshort =>
    have hnone : groupsOf p = [] := groupsOf.eq_2 p hshort
    have hcount := groupsOf_length p
    rw [hnone, List.length_nil] at hcount
    rw [hnone, List.eq_nil_of_length_eq_zero (Nat.eq_zero_of_dvd_of_div_eq_zero hp hcount.symm), List.flatMap_nil]

theorem flatMap_modules_specTiles (p : List Bit) (mw h : Px) :
    ((Spec.tiles p mw h).flatMap fun t => modules (Tile.ref t)) = padRight p := by
  calc (Spec.tiles p mw h).flatMap (fun t => modules (Tile.ref t))
    _ = ((Spec.tiles p mw h).map Tile.ref).flatMap modules := (List.flatMap_map ..).symm
    _ = padRight p := by
      rw [map_ref_specTiles, flatMap_modules_groupsOf ⟨_, padRight_length p⟩]

/-- Drawing never faults: each tile contributes its fragment. -/
theorem drawTiles_eq (ts : List TileWord) : drawTiles ts = .ok (ts.flatMap fun t => modules (Tile.ref t)) := by
  induction ts with
  | nil => rfl
  | cons t ts ih => rw [drawTiles, romRead_tileRom, ih]; rfl

/-- Tiles of one width `5 * m` stretch each module of what they draw to `m` columns. -/
theorem pixelColumns_of_width {m : Nat} {ts : List TileWord} (hwidth : ∀ t ∈ ts, (Tile.wpx t).toNat = 5 * m) :
    pixelColumns ts = .ok ((ts.flatMap fun t => modules (Tile.ref t)).flatMap fun b => rep b m) := by
  induction ts with
  | nil => rfl
  | cons t ts ih =>
    obtain ⟨ht, hts⟩ := List.forall_mem_cons.mp hwidth
    rw [pixelColumns, romRead_tileRom, ih hts, ht, Nat.mul_div_cancel_left m (by decide), List.flatMap_cons,
      List.flatMap_append]
    rfl

/-- Settles O50: the fragments are the modules of the groups of the padded pattern, and that has whole groups only. -/
theorem tilesDrawThePaddedPattern : Obligations.TilesDrawThePaddedPattern := by
  refine ⟨fun p => ?pad, fun mw h p s hn hmw hh => ?draw⟩
  case pad =>
    refine ⟨(5 - p.length % 5) % 5, by omega, padRight_eq p, ?_, fun hwhole => ?_⟩
    · rw [padRight_length, Nat.mul_mod_right]
    · rw [padRight_eq, Spec.padded, hwhole]
      exact List.append_nil p
  case draw =>
    refine ⟨_, responseOf_compose s hn hmw hh, ?_, take_padRight p⟩
    exact (drawTiles_eq _).trans (congrArg _ (flatMap_modules_specTiles p mw h))

/-- Settles O52: all tiles are `5 * MW` wide, so the columns are the drawn pattern with every module stretched to MW;
their number is that of the padded modules times MW. -/
theorem stripGeometry : Obligations.StripGeometry := by
  intro mw h p s hn hmw hh
  refine ⟨_, responseOf_compose s hn hmw hh, ?columns, ?width, fun t ht => (dimensions_of_mem_specTiles ht).2⟩
  case columns =>
    refine (pixelColumns_of_width fun t ht => (dimensions_of_mem_specTiles ht).1).trans ?_
    exact congrArg (fun q => Except.ok (q.flatMap fun b => rep b mw.toNat)) (flatMap_modules_specTiles p mw h)
  case width =>
    have hnt : (okResponse 0 [] [] (Spec.tiles p mw h)).nt.toNat = Spec.tileCount p.length := by
      rw [okResponse, Draft.respond_nt, length_specTiles, tileCount_toNat (Nat.le_trans hn (by omega))]
    rw [hnt, Nat.mul_comm (Spec.tileCount p.length) 5, ← padRight_length]
    simp

end Sys2Proof.Machine
end

