-- ==== Sys2Proof/Proofs/Render.lean ====
section
/-! PROOFS. What UNSUP answers (spec/45_render.md R204). -/

namespace Sys2Proof.Machine

/-- UNSUP raises at once: nothing is computed before its error response. -/
theorem unsupported_eq (s : State) : unsupported s = .next (s.raiseError .unsupportedFormat) := rfl

/-- Settles O22: each of the sixteen rows drops its operands and is UNSUP itself. -/
theorem unsupportedRowsAnswerUnsupportedFormat : Obligations.UnsupportedRowsAnswerUnsupportedFormat := by
  intro a b c d mw h pay s
  and_intros <;> exact unsupported_eq s

end Sys2Proof.Machine
end

