-- ==== Sys2Proof/Proofs/Exceptions.lean ====
section
/-! PROOFS. What `raise` delivers, and that an answered request leaves nothing behind (spec/60_exceptions.md R217,
R219, R220). -/

namespace Sys2Proof.Machine

/-! ### The error response -/

theorem ErrorResult.response_status (e : ErrorResult) : e.response.status = e.status :=
  Draft.respond_status e.status Draft.empty

/-- Settles O20: the response is packed from an empty draft, so every count is the length of an empty sequence. -/
theorem raiseDeliversABareError : Obligations.RaiseDeliversABareError := by
  intro e s
  refine ⟨e.response, rfl, rfl, rfl, ?status, Draft.respond_checksum e.status _, Draft.respond_tlen e.status _,
    Draft.respond_blen e.status _, Draft.respond_nt e.status _, rfl, rfl, rfl⟩
  cases e <;> exact ErrorResult.response_status _

/-! ### The step of a request -/

namespace OneOutcome

variable {k : State → Host.Outcome State Fault Refusal}

theorem responseOf_eq (hk : OneOutcome k) (s t : State) : responseOf (k s) = responseOf (k t) := by
  obtain ⟨r, hr⟩ | ⟨f, hf⟩ | ⟨q, hq⟩ := hk
  · rw [hr, hr]
    rfl
  · rw [hf, hf]
  · rw [hq, hq]

/-- It goes on by delivering a response, or not at all. -/
theorem eq_deliver_of_next (hk : OneOutcome k) {s t : State} (h : k s = .next t) :
    ∃ r : Response, t = s.deliver r := by
  obtain ⟨r, hr⟩ | ⟨f, hf⟩ | ⟨q, hq⟩ := hk
  · exact ⟨r, Host.Outcome.next.inj (h.symm.trans (hr s))⟩
  · cases h.symm.trans (hf s)
  · cases h.symm.trans (hq s)

end OneOutcome

/-- A request has one outcome for all states it is presented in, whether it decodes or is refused (R13, R20). -/
theorem exists_oneOutcome_step (r : Request) :
    ∃ k, OneOutcome k ∧ ∀ s : State, s.resetIn = false → s.req = some r → step s = k s := by
  cases hdecode : decode r with
  | ok i =>
    exact ⟨exec i, responseIsAFunctionOfTheRequest i, fun s hrun hreq => by simp [step, hrun, hreq, hdecode]⟩
  | error e =>
    cases e with
    | lengthMismatch =>
      exact ⟨fun _ => .refused .lengthMismatch, .inr (.inr ⟨_, fun _ => rfl⟩),
        fun s hrun hreq => by simp [step, hrun, hreq, hdecode]⟩
    | payloadWidth =>
      exact ⟨fun _ => .refused .payloadWidth, .inr (.inr ⟨_, fun _ => rfl⟩),
        fun s hrun hreq => by simp [step, hrun, hreq, hdecode]⟩

theorem responseOf_step_eq {s t : State} {r : Request} (hs : s.resetIn = false) (hsr : s.req = some r)
    (ht : t.resetIn = false) (htr : t.req = some r) : responseOf (step s) = responseOf (step t) := by
  obtain ⟨k, hk, hstep⟩ := exists_oneOutcome_step r
  rw [hstep s hs hsr, hstep t ht htr]
  exact hk.responseOf_eq s t

/-- An answered request ends with the delivery of its response. -/
theorem step_eq_deliver {s t : State} (hreq : s.req ≠ none) (hrun : s.resetIn = false) (h : step s = .next t) :
    ∃ r : Response, t = s.deliver r := by
  obtain ⟨q, hq⟩ := Option.ne_none_iff_exists'.mp hreq
  obtain ⟨k, hk, hstep⟩ := exists_oneOutcome_step q
  exact hk.eq_deliver_of_next ((hstep s hrun hq).symm.trans h)

/-- Settles O10: delivery leaves the reset input alone, so the next request is run as after reset, and its response
does not depend on the registers the earlier one has left. -/
theorem earlierRequestsLeaveNothingBehind : Obligations.EarlierRequestsLeaveNothingBehind := by
  intro s t u v r hreq hrun hstep hu hv
  obtain ⟨a, rfl⟩ := step_eq_deliver hreq hrun hstep
  obtain ⟨_, rfl⟩ := State.present_eq_some r hu
  obtain ⟨_, rfl⟩ := State.present_eq_some r hv
  exact responseOf_step_eq hrun rfl rfl rfl

end Sys2Proof.Machine
end

