-- ==== Sys2Proof/Proofs/Encoding.lean ====
section
/-! PROOFS. The decoder against the encoder and against the opcode table (spec/30_encoding.md R71, R80 to R86), and the
requests that the driver's call forms denote (R88, R89). -/

namespace Sys2Proof

/-! ### The operation code of what the decoder reads -/

section Decoded

variable {op : BitVec 8} {fmt : BitVec 4} (mw h : Px) (cs : List Character)

theorem op_decodeRen (fmt : BitVec 4) : (decodeRen fmt mw h cs).op = 0#4 ++ fmt := by
  have all : ∀ fmt, (decodeRen fmt 0 0 []).op = 0#4 ++ fmt := by decide
  rw [← all fmt, decodeRen, decodeRen]
  split_ifs <;> rfl

theorem op_decodeEnc (fmt : BitVec 4) : (decodeEnc fmt mw h cs).op = 1#4 ++ fmt := by
  have all : ∀ fmt, (decodeEnc fmt 0 0 []).op = 1#4 ++ fmt := by decide
  rw [← all fmt, decodeEnc, decodeEnc]
  split_ifs <;> rfl

theorem op_decodeChk (fmt : BitVec 4) : (decodeChk fmt mw h cs).op = 2#4 ++ fmt := by
  have all : ∀ fmt, (decodeChk fmt 0 0 []).op = 2#4 ++ fmt := by decide
  rw [← all fmt, decodeChk, decodeChk]
  split_ifs <;> rfl

/-- FMT = 0 is COMPOSE itself and does not come here. -/
theorem op_decodeReservedCompose (hfmt : fmt ≠ 0) : (decodeReservedCompose fmt mw h cs).op = 3#4 ++ fmt := by
  have all : ∀ fmt ≠ 0, (decodeReservedCompose fmt 0 0 []).op = 3#4 ++ fmt := by decide
  rw [← all fmt hfmt, decodeReservedCompose, decodeReservedCompose]
  split_ifs <;> rfl

/-- From FN 4 upward the upper two bits of OP select the row (R84). -/
theorem op_of_reserved_fn (hfn : ¬ (Op.fn op = 0 ∨ Op.fn op = 1 ∨ Op.fn op = 2 ∨ Op.fn op = 3)) :
    (if Op.fn op < 8 then 1#2 else if Op.fn op < 12 then 2#2 else 3#2) ++ op.extractLsb' 0 6 = op := by
  revert op
  decide

/-- Whatever row OP selects, the row's fixed bits and the free ones together are OP again. -/
theorem op_decodeChars (hop : op ≠ 0x30) : (decodeChars op mw h cs).op = op := by
  have joined {fn : BitVec 4} (hfn : Op.fn op = fn) : fn ++ Op.fmt op = op := hfn ▸ Op.fn_append_fmt op
  simp only [decodeChars]
  split_ifs with h0 h1 h2 h3 h8 h12
  · exact (op_decodeRen mw h cs _).trans (joined h0)
  · exact (op_decodeEnc mw h cs _).trans (joined h1)
  · exact (op_decodeChk mw h cs _).trans (joined h2)
  · have hfmt : Op.fmt op ≠ 0 := fun hzero => hop ((joined h3).symm.trans (hzero ▸ rfl))
    exact (op_decodeReservedCompose mw h cs hfmt).trans (joined h3)
  all_goals
    have hrow := op_of_reserved_fn (op := op) (by tauto)
    simp only [*, if_true, if_false] at hrow
    exact hrow

/-- The decoder hands the dimensions and the payload on as they are. -/
theorem operands_decodeChars (op : BitVec 8) :
    (decodeChars op mw h cs).mw = mw ∧ (decodeChars op mw h cs).h = h ∧
    (decodeChars op mw h cs).payload = .chars cs := by
  simp only [decodeChars, decodeRen, decodeEnc, decodeChk, decodeReservedCompose]
  split_ifs <;> exact ⟨rfl, rfl, rfl⟩

end Decoded

/-- What an operation code decodes to carries that code and the operands. -/
theorem fields_of_decodeOp {op : BitVec 8} {mw h : Px} {pay : Payload} {i : Instr}
    (hi : decodeOp op mw h pay = .ok i) : i.op = op ∧ i.mw = mw ∧ i.h = h ∧ i.payload = pay := by
  by_cases hop : op = 0x30
  · subst hop
    cases pay with
    | chars cs => cases hi
    | bits bs => cases hi; exact ⟨rfl, rfl, rfl, rfl⟩
  · cases pay with
    | chars cs =>
      rw [decodeOp_chars hop] at hi
      cases hi
      exact ⟨op_decodeChars mw h cs hop, operands_decodeChars mw h cs op⟩
    | bits bs => rw [decodeOp, if_neg hop] at hi; cases hi

/-- Settles O14: the header is its four fields, and each of them is found again in the instruction; LEN is the length
of the payload. -/
theorem encodeOfDecodeIsTheRequest : Obligations.EncodeOfDecodeIsTheRequest := by
  rintro ⟨hdr, pay⟩ i hi
  obtain ⟨hlen, hop⟩ := decode_eq_ok hi
  obtain ⟨hiop, himw, hih, hipay⟩ := fields_of_decodeOp hop
  have hlen' : BitVec.ofNat 24 pay.length = Header.len hdr := by
    rw [show pay.length = _ from hlen, BitVec.ofNat_toNat, BitVec.setWidth_eq]
  simp only [encode, hiop, himw, hih, hipay, hlen', Header.pack_fields]

/-! ### Decoding what an instruction is encoded as

An operation code of UNSUP is a row's fixed bits `pre` with the free bits `sel` behind them. -/

theorem code_append_one (pre : BitVec 7) (sel : BitVec 1) : (pre ++ sel = 0x30#8 ↔ pre = 0x18 ∧ sel = 0) ∧
    Op.fn (pre ++ sel) = pre.extractLsb' 3 4 ∧ Op.fmt (pre ++ sel) = pre.extractLsb' 0 3 ++ sel := by
  decide +revert

theorem code_append_two (pre : BitVec 6) (sel : BitVec 2) : (pre ++ sel = 0x30#8 ↔ pre = 0x0C ∧ sel = 0) ∧
    Op.fn (pre ++ sel) = pre.extractLsb' 2 4 ∧ Op.fmt (pre ++ sel) = pre.extractLsb' 0 2 ++ sel := by
  decide +revert

theorem code_append_three (pre : BitVec 5) (sel : BitVec 3) : (pre ++ sel = 0x30#8 ↔ pre = 0x06 ∧ sel = 0) ∧
    Op.fn (pre ++ sel) = pre.extractLsb' 1 4 ∧ Op.fmt (pre ++ sel) = pre.extractLsb' 0 1 ++ sel := by
  decide +revert

/-- Six free bits reach into FN, whose upper two bits are the fixed ones: not 0, for they are not below FN 4. -/
theorem code_append_six {pre : BitVec 2} (hpre : pre ≠ 0) (sel : BitVec 6) : pre ++ sel ≠ 0x30#8 ∧
    Op.fn (pre ++ sel) ≠ 0#4 ∧ Op.fn (pre ++ sel) ≠ 1#4 ∧ Op.fn (pre ++ sel) ≠ 2#4 ∧ Op.fn (pre ++ sel) ≠ 3#4 ∧
    (Op.fn (pre ++ sel) < 8#4 ↔ pre < 2#2) ∧ (Op.fn (pre ++ sel) < 12#4 ↔ pre < 3#2) ∧
    (pre ++ sel : BitVec 8).extractLsb' 0 6 = sel := by
  decide +revert

/-- A row of FMT is told from the rows before it and after it by the fixed bits of FMT. -/
theorem fmt_append_one (sel : BitVec 1) : 1#3 ++ sel ≠ 0#4 ∧ 1#3 ++ sel ≠ 1#4 ∧ ¬ 1#3 ++ sel < 2#4 ∧
    1#3 ++ sel < 4#4 ∧ (1#3 ++ sel : BitVec 4).extractLsb' 0 1 = sel := by
  decide +revert

theorem fmt_append_two (sel : BitVec 2) : 1#2 ++ sel ≠ 0#4 ∧ 1#2 ++ sel ≠ 1#4 ∧ ¬ 1#2 ++ sel < 2#4 ∧
    ¬ 1#2 ++ sel < 4#4 ∧ 1#2 ++ sel < 8#4 ∧ (1#2 ++ sel : BitVec 4).extractLsb' 0 2 = sel := by
  decide +revert

theorem fmt_append_three (sel : BitVec 3) : 1#1 ++ sel ≠ 0#4 ∧ 1#1 ++ sel ≠ 1#4 ∧ ¬ 1#1 ++ sel < 2#4 ∧
    ¬ 1#1 ++ sel < 4#4 ∧ ¬ 1#1 ++ sel < 8#4 ∧ (1#1 ++ sel : BitVec 4).extractLsb' 0 3 = sel := by
  decide +revert

theorem decodeOp_op (i : Instr) : decodeOp i.op i.mw i.h i.payload = .ok i := by
  cases i with
  | renEan13 | renC128 | encEan13 | encC128 | chkEan13 | chkC128 | compose | unsupCompose1 =>
    simp [Instr.op, Instr.payload, decodeOp, decodeChars, decodeRen, decodeEnc, decodeChk, decodeReservedCompose, Op.fn,
      Op.fmt, Instr.mw, Instr.h]
  | unsupRen23 sel | unsupEnc23 sel | unsupChk23 sel | unsupCompose23 sel =>
    simp [Instr.op, Instr.payload, decodeOp, decodeChars, decodeRen, decodeEnc, decodeChk, decodeReservedCompose,
      Instr.mw, Instr.h, code_append_one, fmt_append_one]
  | unsupRen47 sel | unsupEnc47 sel | unsupChk47 sel | unsupCompose47 sel =>
    simp [Instr.op, Instr.payload, decodeOp, decodeChars, decodeRen, decodeEnc, decodeChk, decodeReservedCompose,
      Instr.mw, Instr.h, code_append_two, fmt_append_two]
  | unsupRen8F sel | unsupEnc8F sel | unsupChk8F sel | unsupCompose8F sel =>
    simp [Instr.op, Instr.payload, decodeOp, decodeChars, decodeRen, decodeEnc, decodeChk, decodeReservedCompose,
      Instr.mw, Instr.h, code_append_three, fmt_append_three]
  | unsupFn47 sel | unsupFn8B sel | unsupFnCF sel =>
    simp [Instr.op, Instr.payload, decodeOp, decodeChars, Instr.mw, Instr.h, code_append_six]

/-- Settles O13: the header's fields are read back as they were packed, LEN does not wrap up to NMAX, and the operation
code selects the instruction's own row. -/
theorem decodeOfEncodeIsTheInstruction : Obligations.DecodeOfEncodeIsTheInstruction := by
  intro i hi
  have hlen : i.payload.length = (BitVec.ofNat 24 i.payload.length).toNat :=
    (Nat.mod_eq_of_lt (Nat.lt_succ_of_le hi)).symm
  exact (decode_pack hlen i.op i.mw i.h).trans (decodeOp_op i)

/-! ### The opcode table (spec/opcode_table.json) -/

theorem tableRow : ∀ i : Instr, Laws.TableRow.Statement i
  | .renEan13 mw h pay => Laws.TableRow.renEan13 mw h pay
  | .renC128 mw h pay => Laws.TableRow.renC128 mw h pay
  | .encEan13 mw h pay => Laws.TableRow.encEan13 mw h pay
  | .encC128 mw h pay => Laws.TableRow.encC128 mw h pay
  | .chkEan13 mw h pay => Laws.TableRow.chkEan13 mw h pay
  | .chkC128 mw h pay => Laws.TableRow.chkC128 mw h pay
  | .compose mw h pay => Laws.TableRow.compose mw h pay
  | .unsupRen23 sel mw h pay => Laws.TableRow.unsupRen23 sel mw h pay
  | .unsupRen47 sel mw h pay => Laws.TableRow.unsupRen47 sel mw h pay
  | .unsupRen8F sel mw h pay => Laws.TableRow.unsupRen8F sel mw h pay
  | .unsupEnc23 sel mw h pay => Laws.TableRow.unsupEnc23 sel mw h pay
  | .unsupEnc47 sel mw h pay => Laws.TableRow.unsupEnc47 sel mw h pay
  | .unsupEnc8F sel mw h pay => Laws.TableRow.unsupEnc8F sel mw h pay
  | .unsupChk23 sel mw h pay => Laws.TableRow.unsupChk23 sel mw h pay
  | .unsupChk47 sel mw h pay => Laws.TableRow.unsupChk47 sel mw h pay
  | .unsupChk8F sel mw h pay => Laws.TableRow.unsupChk8F sel mw h pay
  | .unsupCompose1 mw h pay => Laws.TableRow.unsupCompose1 mw h pay
  | .unsupCompose23 sel mw h pay => Laws.TableRow.unsupCompose23 sel mw h pay
  | .unsupCompose47 sel mw h pay => Laws.TableRow.unsupCompose47 sel mw h pay
  | .unsupCompose8F sel mw h pay => Laws.TableRow.unsupCompose8F sel mw h pay
  | .unsupFn47 sel mw h pay => Laws.TableRow.unsupFn47 sel mw h pay
  | .unsupFn8B sel mw h pay => Laws.TableRow.unsupFn8B sel mw h pay
  | .unsupFnCF sel mw h pay => Laws.TableRow.unsupFnCF sel mw h pay

theorem opcodeTable_partition :
    ∀ op : BitVec 8, (opcodeTable.filter fun r => op &&& r.mask = r.pattern).length = 1 := by
  decide

theorem opcodeRow_unique {op : BitVec 8} {r r' : OpcodeRow} (hr : r ∈ opcodeTable) (hr' : r' ∈ opcodeTable)
    (hmatch : op &&& r.mask = r.pattern) (hmatch' : op &&& r'.mask = r'.pattern) : r = r' := by
  obtain ⟨row, hrow⟩ := List.length_eq_one_iff.mp (opcodeTable_partition op)
  have only {q : OpcodeRow} (hq : q ∈ opcodeTable) (hqm : op &&& q.mask = q.pattern) : q = row := by
    have hmem : q ∈ opcodeTable.filter fun r => op &&& r.mask = r.pattern := by simp [hq, hqm]
    simpa [hrow] using hmem
  exact (only hr hmatch).trans (only hr' hmatch').symm

/-- Settles O18: an instruction's own code matches the row of its mnemonic, and no code matches a second row. -/
theorem decoderFollowsTheOpcodeTable : Obligations.DecoderFollowsTheOpcodeTable := by
  refine ⟨opcodeTable_partition, fun op mw h pay i hi => ?_⟩
  obtain ⟨rfl, hmw, hh, hpay⟩ := fields_of_decodeOp hi
  refine ⟨rfl, hmw, hh, hpay, fun r hr hmatch => ?_⟩
  obtain ⟨row, hrow, hmnemonic, hown⟩ := tableRow i
  rw [opcodeRow_unique hr hrow hmatch hown, hmnemonic]

/-- Settles O17: each word is read as a header, and its operation code selects the row. -/
theorem sampleWordsDecode : Obligations.SampleWordsDecode := by
  and_intros <;> rfl

/-! ### The driver's call forms (R88, R89) -/

namespace Machine

/-- A payload within NMAX makes a request that decodes as its operation code says. -/
theorem buildRequest_decode {pay : Payload} (hn : pay.length ≤ Config.nmax) (op : BitVec 8) (mw h : Px) :
    ∃ r, buildRequest op mw h pay = some r ∧ decode r = decodeOp op mw h pay :=
  ⟨_, if_pos hn, decode_pack (Nat.mod_eq_of_lt (Nat.lt_succ_of_le hn)).symm op mw h⟩

theorem buildRequest_of_instr {i : Instr} (hi : i.WellFormed) :
    ∃ r, buildRequest i.op i.mw i.h i.payload = some r ∧ decode r = .ok i := by
  obtain ⟨r, hr, hdecode⟩ := buildRequest_decode hi i.op i.mw i.h
  exact ⟨r, hr, hdecode.trans (decodeOp_op i)⟩

theorem formatCode_ean13 : formatCode (codes "ean13") = 0 := by decide

theorem formatCode_code128 : formatCode (codes "code128") = 1 := by decide

theorem formatCode_of_other {fmt : List Character} (hean : fmt ≠ codes "ean13") (hc128 : fmt ≠ codes "code128") :
    formatCode fmt = 15 := by
  rw [formatCode, if_neg hean, if_neg hc128]

/-- Settles O58: each call form builds what the named instruction is encoded as. -/
theorem callFormsDenoteTheirRequests : Obligations.CallFormsDenoteTheirRequests := by
  intro s fmt bs w h hs hbs
  refine ⟨buildRequest_of_instr (i := .encEan13 0 0 s) hs, buildRequest_of_instr (i := .encC128 0 0 s) hs,
    buildRequest_of_instr (i := .compose w h bs) hbs, ?ean13, ?code128, fun hean hc128 => ?other⟩
  case ean13 =>
    rw [CallForm.toRequest, formatCode_ean13]
    exact buildRequest_of_instr (i := .renEan13 w h s) hs
  case code128 =>
    rw [CallForm.toRequest, formatCode_code128]
    exact buildRequest_of_instr (i := .renC128 w h s) hs
  case other =>
    rw [CallForm.toRequest, formatCode_of_other hean hc128]
    exact buildRequest_of_instr (i := .unsupRen8F 7 w h s) hs

end Machine

end Sys2Proof
end

