-- ==== Sys2Proof/Proofs/RegisterFrames.lean ====
section
/-! PROOFS. What the register stages of the two symbologies write and what they leave alone (spec/10_state.md section
3): truncation and parity selection (R104, R125), and the frames of the EAN-13 and of the Code128-B part. -/

namespace Sys2Proof.Machine

/-- Both halves of a computation that ends well end well. -/
theorem bind_eq_ok {α β : Type} {x : Except Stop α} {k : α → Except Stop β} {b : β} (h : (x >>= k) = .ok b) :
    ∃ a, x = .ok a ∧ k a = .ok b := by
  cases x with
  | error e => cases h
  | ok a => exact ⟨a, rfl, h⟩

/-! ### EAN-13 (R104, R125) -/

/-- Settles O25: twelve digits or more are laid out, and the thirteenth place keeps what it held. -/
theorem truncateCopiesTwelveDigits : Obligations.TruncateCopiesTwelveDigits := by
  intro w h12
  obtain ⟨d0, d1, d2, d3, d4, d5, d6, d7, d8, d9, d10, d11, rest, hd⟩ := exists_twelve h12
  refine ⟨_, truncate_of_eq hd, ?_⟩
  rw [hd]
  rfl

/-- A word's bits written into a register, first bit first. -/
theorem toList_ofFn_getMsbD {n : Nat} (v : BitVec n) :
    (Vector.ofFn fun j : Fin n => v.getMsbD j).toList = msbFirst v := by
  rw [Vector.toList_ofFn, msbFirst, List.ofFn_eq_map, ← List.map_coe_finRange_eq_range, List.map_map]
  rfl

/-- Settles O27: a decimal digit is within PARITY_ROM. -/
theorem parityRegisterIsSelectedByLeadingDigit : Obligations.ParityRegisterIsSelectedByLeadingDigit := by
  intro w h9
  have hlt : w.regs.dig[0].toNat < parityRom.length := Nat.lt_succ_of_le h9
  refine ⟨Vector.ofFn fun j => (parityRom[w.regs.dig[0].toNat]).getMsbD j, ?_, ?_⟩
  · rw [selectParity, romRead_of_lt hlt]
    rfl
  · rw [toList_ofFn_getMsbD, List.getD_eq_getElem _ _ hlt]

/-! ### The frame of the EAN-13 part -/

theorem checkLength_eq_ok {w v : Work} (h : checkLength w = .ok v) : v = w := by
  rw [checkLength] at h
  split at h
  · cases h
  · exact (Except.ok.inj h).symm

theorem truncate_eq_ok {w v : Work} (h : truncate w = .ok v) :
    ∃ dig, v = { w with regs := { w.regs with dig := dig } } := by
  rw [truncate] at h
  split at h
  · exact ⟨_, (Except.ok.inj h).symm⟩
  · cases h

theorem selectParity_eq_ok {w v : Work} (h : selectParity w = .ok v) :
    ∃ par, v = { w with regs := { w.regs with par := par } } := by
  obtain ⟨p, -, hv⟩ := bind_eq_ok h
  exact ⟨_, (Except.ok.inj hv).symm⟩

/-- The checksum calculator that ends well has stripped, truncated and summed. -/
theorem eanChecksum_eq_ok {pay : List Character} {w v : Work} (h : eanChecksum pay w = .ok v) :
    ∃ dig, v = eanText (checkDigit (total (sums
      { strip pay w with regs := { (strip pay w).regs with dig := dig } }))) := by
  obtain ⟨u, hlength, h⟩ := bind_eq_ok h
  obtain ⟨x, htruncate, hv⟩ := bind_eq_ok h
  obtain rfl := checkLength_eq_ok hlength
  obtain ⟨dig, rfl⟩ := truncate_eq_ok htruncate
  exact ⟨dig, (Except.ok.inj hv).symm⟩

/-- Settles O28: every stage that ends well is an update of its own registers; bit assembly writes none. -/
theorem eanPartWritesOnlyItsRegisters : Obligations.EanPartWritesOnlyItsRegisters := by
  intro pay w v b h
  obtain ⟨u, hchecksum, h⟩ := bind_eq_ok h
  obtain ⟨x, hparity, h⟩ := bind_eq_ok h
  obtain ⟨bits, -, hv⟩ := bind_eq_ok h
  obtain ⟨dig, rfl⟩ := eanChecksum_eq_ok hchecksum
  obtain ⟨par, rfl⟩ := selectParity_eq_ok hparity
  cases hv
  and_intros <;> rfl

/-! ### The frame of the Code128-B part -/

/-- The weighting loop writes POS and ACC. -/
theorem weigh_eq (k : Nat) (vs : List SymbolValue) (r : Registers) :
    ∃ pos acc, weigh k vs r = { r with pos := pos, acc := acc } := by
  induction vs generalizing k r with
  | nil => exact ⟨r.pos, r.acc, rfl⟩
  | cons v vs ih => exact ih (k + 1) _

/-- Drawing symbols writes POL. -/
theorem drawSymbols_eq_ok {vs : List Nat} {r t : Registers} {b : List Bit} (h : drawSymbols vs r = .ok (t, b)) :
    ∃ pol, t = { r with pol := pol } := by
  induction vs generalizing r b with
  | nil => cases h; exact ⟨t.pol, rfl⟩
  | cons v vs ih =>
    obtain ⟨widths, -, h⟩ := bind_eq_ok h
    obtain ⟨⟨q, rest⟩, hrest, ht⟩ := bind_eq_ok h
    cases ht
    obtain ⟨pol, rfl⟩ := ih hrest
    exact ⟨pol, rfl⟩

/-- The checksum unit writes N, SYM, POS, ACC and CHK103, and fills CHECKSUM and TEXT. -/
theorem c128Checksum_eq (pay : List Character) (w : Work) :
    ∃ n sym pos acc chk103 checksum text, c128Checksum pay w =
      { regs := { w.regs with n := n, sym := sym, pos := pos, acc := acc, chk103 := chk103 },
        out := { w.out with checksum := checksum, text := text } } := by
  obtain ⟨pos, acc, hweigh⟩ := weigh_eq 0 _ { (mapSymbols pay (countCharacters pay w)).regs with acc := 104 }
  rw [c128Checksum, weightedSum, hweigh]
  exact ⟨_, _, _, _, _, _, _, rfl⟩

/-- Settles O39: the loops write only their own registers, and everything else is a single update. -/
theorem c128PartWritesOnlyItsRegisters : Obligations.C128PartWritesOnlyItsRegisters := by
  intro pay w v b h
  obtain ⟨⟨t, bits⟩, hdraw, hv⟩ := bind_eq_ok h
  obtain ⟨pol, rfl⟩ := drawSymbols_eq_ok hdraw
  obtain ⟨n, sym, pos, acc, chk103, checksum, text, hchecksum⟩ := c128Checksum_eq pay w
  rw [hchecksum] at hv
  cases hv
  and_intros <;> rfl

end Sys2Proof.Machine
end

