-- ==== Sys2Proof/Proofs/RenderResults.lean ====
section
/-! PROOFS. What REN answers (spec/45_render.md R202, R203, R205), and what the results of the two symbologies have in
common with each other: the EAN-13 digits (R104, R109), the substitution of Code128-B (R143), the references of the
composer (R187). -/

namespace Sys2Proof

namespace Machine

/-! ### What the renderers answer (R202, R203, R205) -/

/-- A pattern composed onto a draft without bits and tiles: the end of REN and, from an empty draft, of COMPOSE. -/
theorem finish_composePattern {p : List Bit} (hn : p.length ≤ 11 * Config.nmax + 55) (mw h : Px) (s : State) {w : Work}
    {checksum : Nat} {text : List Character}
    (hout : w.out = { Draft.empty with checksum := BitVec.ofNat 7 checksum, text := text }) :
    s.finish (.ok (composePattern p mw h w)) =
      .next (s.deliver (okResponse checksum text [] (Spec.tiles p mw h))) := by
  simp only [State.finish, composePattern_out hn, hout]
  rfl

/-- COMPOSE of a pattern that an encoder hands over, which may be longer than a request can carry (log 16). -/
theorem exec_compose_of_le {p : List Bit} (hn : p.length ≤ 11 * Config.nmax + 55) {mw h : Px} (hm : mw ≠ 0)
    (hh : h ≠ 0) (s : State) : exec (.compose mw h p) s = .next (s.deliver (okResponse 0 [] [] (Spec.tiles p mw h))) :=
  (requireDimensions_of_pos hm hh _).trans (finish_composePattern hn mw h s rfl)

theorem length_eanBits_le {pay : List Character} (h12 : 12 ≤ (Spec.digits pay).length) :
    (Spec.eanBits (Spec.eanDigits pay)).length ≤ 11 * Config.nmax + 55 := by
  rw [Spec.length_eanBits (Spec.length_eanDigits h12)]
  decide

/-- Settles O31: the 95 modules that ENC.EAN13 would emit go to the composer. -/
theorem renEan13AnswersTheTiles : Obligations.RenEan13AnswersTheTiles := by
  intro mw h pay s hn h12 hm hh
  obtain ⟨v, hv, hout⟩ := eanPattern_ok hn h12 s.begin
  calc exec (.renEan13 mw h pay) s
    _ = s.finish (.ok (composePattern (Spec.eanBits (Spec.eanDigits pay)) mw h v)) := by
      simp only [exec, execRenEan13, requireDimensions_of_pos hm hh, hv]
      rfl
    _ = _ := finish_composePattern (length_eanBits_le h12) mw h s hout

theorem length_c128Bits_le {pay : List Character} (hn : pay.length ≤ Config.nmax) :
    (Spec.c128Bits pay).length ≤ 11 * Config.nmax + 55 := by
  rw [Spec.length_c128Bits]
  omega

/-- Settles O42: the pattern that ENC.C128 would emit goes to the composer. -/
theorem renC128AnswersTheTiles : Obligations.RenC128AnswersTheTiles := by
  intro mw h pay s hn hm hh
  obtain ⟨v, hv, hout⟩ := c128Pattern_ok hn s.begin
  calc exec (.renC128 mw h pay) s
    _ = s.finish (.ok (composePattern (Spec.c128Bits pay) mw h v)) := by
      simp only [exec, execRenC128, requireDimensions_of_pos hm hh, hv]
      rfl
    _ = _ := finish_composePattern (length_c128Bits_le hn) mw h s hout

/-- With fewer than twelve digits the three EAN-13 operations answer InvalidInput (O21). -/
theorem exec_ean_of_short {pay : List Character} (hn : pay.length ≤ Config.nmax)
    (hshort : (Spec.digits pay).length < 12) (mw h : Px) (s : State) :
    exec (.chkEan13 mw h pay) s = .next (s.raiseError .invalidInput) ∧
    exec (.encEan13 mw h pay) s = .next (s.raiseError .invalidInput) ∧
    (mw ≠ 0 → h ≠ 0 → exec (.renEan13 mw h pay) s = .next (s.raiseError .invalidInput)) :=
  (tooFewDigitsIsInvalidInput mw h pay s hn).1 hshort

/-- A check value below 128 fits CHECKSUM (R76). -/
theorem okResponse_checksum_toNat {checksum : Nat} (hlt : checksum < 128) (text : List Character) (bits : List Bit)
    (tiles : List TileWord) : (okResponse checksum text bits tiles).checksum.toNat = checksum := by
  rw [okResponse, Draft.respond_checksum]
  exact Nat.mod_eq_of_lt hlt

theorem eanCheck_le (ds : List Nat) : Spec.eanCheck ds ≤ 9 := by
  rw [Spec.eanCheck]
  split <;> omega

/-- Settles O53: both sides are known in full (O30, O31, O41, O42), and COMPOSE runs on the bits ENC answers; an error
of ENC is the length check's, which REN makes too (O21). -/
theorem renderIsEncodeThenCompose : Obligations.RenderIsEncodeThenCompose := by
  intro mw h mw' h' pay s hn hm hh
  refine ⟨?ean, ?c128⟩
  case ean =>
    rcases Nat.lt_or_ge (Spec.digits pay).length 12 with hshort | h12
    · obtain ⟨-, -, hren⟩ := exec_ean_of_short hn hshort mw h s
      obtain ⟨-, henc, -⟩ := exec_ean_of_short hn hshort mw' h' s
      have hstatus := ErrorResult.response_status .invalidInput
      refine ⟨ErrorResult.invalidInput.response, congrArg responseOf henc, fun _ => ?_, fun hok => ?_⟩
      · rw [hren hm hh, hstatus]
        rfl
      · rw [hstatus] at hok
        exact absurd hok (by decide)
    · refine ⟨_, congrArg responseOf (encEan13AnswersThePattern mw' h' pay s hn h12), fun hbad => ?_, fun _ => ?_⟩
      · exact absurd (Draft.respond_status statusOk _) hbad
      · refine ⟨_, congrArg responseOf (exec_compose_of_le (length_eanBits_le h12) hm hh s), ?_⟩
        rw [renEan13AnswersTheTiles mw h pay s hn h12 hm hh,
          okResponse_checksum_toNat (Nat.lt_of_le_of_lt (eanCheck_le _) (by decide))]
        rfl
  case c128 =>
    refine ⟨_, _, congrArg responseOf (encC128AnswersThePattern mw' h' pay s hn),
      congrArg responseOf (exec_compose_of_le (length_c128Bits_le hn) hm hh s), ?_⟩
    rw [renC128AnswersTheTiles mw h pay s hn hm hh, okResponse_c128Check_checksum]
    rfl

/-! ### The EAN-13 digits (R104, R109) -/

/-- Settles O33: the three responses are written out in the kept digits alone (O29, O30, O31), and a refusal for the
dimensions does not look at the payload. -/
theorem onlyFirstTwelveDigitsMatter : Obligations.OnlyFirstTwelveDigitsMatter := by
  intro mw h p q s hp hq hp12 hq12 hkept
  have hdigits : Spec.eanDigits p = Spec.eanDigits q := by rw [Spec.eanDigits, Spec.eanDigits, hkept]
  have htext : Spec.eanText p = Spec.eanText q := by rw [Spec.eanText, Spec.eanText, hdigits]
  refine ⟨?_, ?_, ?_⟩
  · rw [chkEan13AnswersCheckDigitAndText mw h p s hp hp12, chkEan13AnswersCheckDigitAndText mw h q s hq hq12, hkept,
      htext]
  · rw [encEan13AnswersThePattern mw h p s hp hp12, encEan13AnswersThePattern mw h q s hq hq12, hkept, htext, hdigits]
  · by_cases hz : mw = 0 ∨ h = 0
    · exact (requireDimensions_of_zero hz _).trans (requireDimensions_of_zero hz _).symm
    · obtain ⟨hm, hh⟩ := not_or.mp hz
      rw [renEan13AnswersTheTiles mw h p s hp hp12 hm hh, renEan13AnswersTheTiles mw h q s hq hq12 hm hh, hkept, htext,
        hdigits]

end Machine

namespace Spec

/-- The weights go on where the digits before have left them. -/
theorem weighted_append {weight : Nat} (hw : weight ≤ 4) (ds es : List Nat) :
    weighted weight (ds ++ es) =
      weighted weight ds + weighted (if ds.length % 2 = 0 then weight else 4 - weight) es := by
  induction ds generalizing weight with
  | nil => simp [weighted]
  | cons d ds ih =>
    have hflip : (if ds.length % 2 = 0 then 4 - weight else 4 - (4 - weight)) =
        (if (d :: ds).length % 2 = 0 then weight else 4 - weight) := by
      rw [List.length_cons]
      split_ifs <;> omega
    rw [List.cons_append, weighted, weighted, ih (Nat.sub_le 4 weight), hflip, Nat.add_assoc]

theorem length_kept {pay : List Character} (h12 : 12 ≤ (digits pay).length) : (kept pay).length = 12 := by
  simp [kept, h12]

/-- The check digit stands behind twelve digits, so its weight is 1. -/
theorem weighted_kept_concat {pay : List Character} (h12 : 12 ≤ (digits pay).length) (c : Nat) :
    weighted 1 (kept pay ++ [c]) = weighted 1 (kept pay) + c := by
  rw [weighted_append (by decide), length_kept h12]
  simp [weighted]

/-- The text shows the digits. -/
theorem map_sub_eanText (pay : List Character) : ((eanText pay).map fun c => c.toNat - 48) = eanDigits pay := by
  rw [eanText, List.map_map]
  refine List.map_congr_left (fun d hd => ?_) |>.trans (List.map_id _)
  have hd9 := Machine.eanDigits_le_nine pay d hd
  simp only [Function.comp, BitVec.toNat_ofNat, id]
  omega

end Spec

namespace Machine

/-- Settles O32: the check digit is what the weighted sum of the twelve lacks to a multiple of 10. -/
theorem thirteenDigitsSumToAMultipleOfTen : Obligations.ThirteenDigitsSumToAMultipleOfTen := by
  intro mw h pay s hn h12
  have h13 : (Spec.eanText pay).length = 13 := by rw [Spec.eanText, List.length_map, Spec.length_eanDigits h12]
  have hdigits : ((okResponse (Spec.eanCheck (Spec.kept pay)) (Spec.eanText pay) [] []).text.map
      fun c => c.toNat - 48) = Spec.kept pay ++ [Spec.eanCheck (Spec.kept pay)] := Spec.map_sub_eanText pay
  refine ⟨_, congrArg responseOf (chkEan13AnswersCheckDigitAndText mw h pay s hn h12), h13, ?sum,
    fun c hc hsum => ?only⟩
  case sum =>
    rw [hdigits, Spec.weighted_kept_concat h12, Spec.eanCheck]
    split_ifs <;> omega
  case only =>
    rw [List.map_take, hdigits, List.take_left' (Spec.length_kept h12)] at hsum
    rw [okResponse_checksum_toNat (Nat.lt_of_le_of_lt (eanCheck_le _) (by decide)), Spec.eanCheck]
    split_ifs <;> omega

/-! ### The substitution (R142, R143) -/

/-- Every character outside [32,127] replaced by `?` (R142). -/
def substituted (pay : List Character) : List Character :=
  pay.map fun c => if 32 ≤ c.toNat ∧ c.toNat ≤ 127 then c else 63

/-- A character outside the range has the symbol value of `?`, and `?` is within it. -/
theorem symbols_substituted (pay : List Character) : Spec.symbols (substituted pay) = Spec.symbols pay := by
  rw [Spec.symbols, Spec.symbols, substituted, List.map_map]
  refine List.map_congr_left fun c _ => ?_
  by_cases hc : 32 ≤ c.toNat ∧ c.toNat ≤ 127 <;> simp [hc]

theorem c128Check_substituted (pay : List Character) : Spec.c128Check (substituted pay) = Spec.c128Check pay := by
  rw [Spec.c128Check, Spec.c128Sum, symbols_substituted]
  rfl

theorem c128Bits_substituted (pay : List Character) : Spec.c128Bits (substituted pay) = Spec.c128Bits pay := by
  rw [Spec.c128Bits, symbols_substituted, c128Check_substituted]
  rfl

/-- Settles O44: check symbol and pattern are made of the symbol values (O41), which the substitution keeps. -/
theorem substitutionShowsOnlyInText : Obligations.SubstitutionShowsOnlyInText := by
  intro mw h pay s hn
  have hlen : (substituted pay).length ≤ Config.nmax := by rwa [substituted, List.length_map]
  refine ⟨_, _, congrArg responseOf (encC128AnswersThePattern mw h pay s hn),
    congrArg responseOf (encC128AnswersThePattern mw h (substituted pay) s hlen), ?checksum, ?bits, rfl⟩
  case checksum => rw [okResponse, okResponse, Draft.respond_checksum, Draft.respond_checksum, c128Check_substituted]
  case bits => exact (c128Bits_substituted pay).symm

/-! ### The references (R187) -/

/-- Settles O51: the references are the groups of the padded pattern, from which it is drawn again. -/
theorem referencesDeterminePaddedPattern : Obligations.ReferencesDeterminePaddedPattern := by
  intro mw h p q s hp hq hm hh
  refine ⟨_, _, responseOf_compose s hp hm hh, responseOf_compose s hq hm hh, fun href => ?_, fun hpad => ?_⟩
  · have hgroups : groupsOf (padRight p) = groupsOf (padRight q) := by
      simpa only [okResponse, Draft.respond_tiles, map_ref_specTiles] using href
    rw [← flatMap_modules_groupsOf ⟨_, padRight_length p⟩, hgroups, flatMap_modules_groupsOf ⟨_, padRight_length q⟩]
  · simp only [okResponse, Draft.respond_tiles, map_ref_specTiles, hpad]

end Machine

end Sys2Proof
end

