-- ==== Sys2Proof/Proofs/RenderEnds.lean ====
section
/-! PROOFS. The tile references with which a render begins and ends (spec/45_render.md R202, R203): they are the groups
of the pattern's guards and quiet zones (R129, R170). -/

namespace Sys2Proof

namespace Spec

open Machine

/-! ### Groups read off a pattern (R181) -/

/-- A group is the five modules of its window. -/
theorem groupValue_of_window {p : List Bit} {k : Nat} {b0 b1 b2 b3 b4 : Bit}
    (h : (p.drop (5 * k)).take 5 = [b0, b1, b2, b3, b4]) :
    groupValue p k = 16 * b0.toNat + 8 * b1.toNat + 4 * b2.toNat + 2 * b3.toNat + b4.toNat := by
  have hbit (i : Nat) (hi : i < 5) : p.getD (5 * k + i) false = [b0, b1, b2, b3, b4].getD i false := by
    rw [← h]
    simp [List.getD_eq_getElem?_getD, hi]
  have h0 := hbit 0 (by decide)
  have h1 := hbit 1 (by decide)
  have h2 := hbit 2 (by decide)
  have h3 := hbit 3 (by decide)
  have h4 := hbit 4 (by decide)
  simp only [groupValue, h1, h2, h3, h4]
  rw [show p.getD (5 * k) false = b0 from h0]
  rfl

/-- A group's window within a known stretch of the pattern. -/
theorem window_of_block {p block : List Bit} {m n i : Nat} (h : (p.drop m).take n = block) (hi : i + 5 ≤ n) :
    (p.drop (m + i)).take 5 = (block.drop i).take 5 := by
  rw [← h, List.drop_take, List.take_take, List.drop_drop, Nat.min_eq_left (by omega)]

/-- Behind the last bar every group is 0, padding included. -/
theorem groupValue_of_quiet {p : List Bit} {m n k : Nat} (hquiet : p.drop m = List.replicate n false) (hk : m ≤ 5 * k) :
    groupValue p k = 0 := by
  have hbit (i : Nat) : p.getD (5 * k + i) false = false := by
    have hdrop : p[5 * k + i]? = (List.replicate n false)[5 * k + i - m]? := by
      rw [← hquiet, List.getElem?_drop, Nat.add_sub_cancel' (by omega)]
    rw [List.getD_eq_getElem?_getD, hdrop, List.getElem?_replicate]
    split <;> rfl
  simp only [groupValue, hbit, show p.getD (5 * k) false = false from hbit 0]
  rfl

/-! ### EAN-13 (R129) -/

section Ean

variable {ds : List Nat} (h : ds.length = 13) (h9 : ∀ d ∈ ds, d ≤ 9)
include h h9

theorem getD_le_nine {j : Nat} (hj : j < 13) : ds.getD j 0 ≤ 9 := by
  rw [List.getD_eq_getElem _ _ (by omega)]
  exact h9 _ (List.getElem_mem _)

/-- The start guard and the first two modules of a left code, which begins with a space. -/
theorem groupValue_eanBits_first : groupValue (eanBits ds) 0 ∈ [20, 21] := by
  have hcode : ∀ p, ∀ d < 10, ∃ x, (leftCode p d).take 2 = [false, x] := by decide
  obtain ⟨x, hx⟩ := hcode ((parity ds).getD 0 false) (ds.getD 1 0)
    (Nat.lt_succ_of_le (getD_le_nine h h9 (by decide)))
  have hleft : ((eanBits ds).drop 3).take 2 = [false, x] := by
    rw [← hx, ← take_drop_eanBits_left h (j := 0) (by decide), List.take_take]
    rfl
  have hwindow : ((eanBits ds).drop (5 * 0)).take 5 = [true, false, true, false, x] := by
    rw [Nat.mul_zero, List.drop_zero, show 5 = 3 + 2 from rfl, List.take_add, take_eanBits, hleft]
    rfl
  rw [groupValue_of_window hwindow]
  cases x <;> decide

omit h9 in
/-- The tenth group is the centre guard. -/
theorem groupValue_eanBits_tenth : groupValue (eanBits ds) 9 = 10 :=
  groupValue_of_window (k := 9) (take_drop_eanBits_centre h)

/-- The last two modules of a right code, 00 or 10, and the end guard. -/
theorem groupValue_eanBits_last : groupValue (eanBits ds) 18 ∈ [5, 21] := by
  have hcode : ∀ d < 10, ∃ x, (code rRom d).drop 5 = [x, false] := by decide
  obtain ⟨x, hx⟩ := hcode (ds.getD 12 0) (Nat.lt_succ_of_le (getD_le_nine h h9 (by decide)))
  have hright : ((eanBits ds).drop 90).take 2 = [x, false] := by
    rw [← hx, ← take_drop_eanBits_right h (j := 5) (by decide), List.drop_take, List.drop_drop]
  have hwindow : ((eanBits ds).drop (5 * 18)).take 5 = [x, false, true, false, true] := by
    rw [show 5 = 2 + 3 from rfl, List.take_add, List.drop_drop, hright, drop_eanBits h]
    rfl
  rw [groupValue_of_window hwindow]
  cases x <;> decide

end Ean

/-! ### Code128-B (R170) -/

/-- Two groups of the quiet zone and the first two of Start-Code-B. -/
theorem groupValue_c128Bits_begin (pay : List Character) :
    [0, 1, 2, 3].map (groupValue (c128Bits pay)) = [0, 0, 26, 8] := by
  have hquiet : ((c128Bits pay).drop 0).take 10 = rep false 10 := take_c128Bits pay
  have hstart : ((c128Bits pay).drop 10).take 11 = symbol 104 := take_drop_c128Bits_start pay
  have h0 := groupValue_of_window (k := 0) (window_of_block hquiet (i := 0) (by decide))
  have h1 := groupValue_of_window (k := 1) (window_of_block hquiet (i := 5) (by decide))
  have h2 := groupValue_of_window (k := 2) (window_of_block hstart (i := 0) (by decide))
  have h3 := groupValue_of_window (k := 3) (window_of_block hstart (i := 5) (by decide))
  simp only [List.map_cons, List.map_nil, h0, h1, h2, h3]
  rfl

/-- The last two groups lie behind Stop. -/
theorem groupValue_c128Bits_end (pay : List Character) {k : Nat} (hk : tileCount (c128Bits pay).length ≤ k + 2) :
    groupValue (c128Bits pay) k = 0 := by
  rw [length_c128Bits, tileCount] at hk
  exact groupValue_of_quiet (drop_c128Bits_quiet pay) (by omega)

end Spec

namespace Machine

theorem map_ref_toNat_specTiles (p : List Bit) (mw h : Px) :
    (Spec.tiles p mw h).map (fun t => (Tile.ref t).toNat) =
      (List.range (Spec.tileCount p.length)).map (Spec.groupValue p) := by
  rw [← groupsOf_padRight_toNat, ← map_ref_specTiles p mw h, List.map_map]
  rfl

/-- Settles O35: 95 modules are 19 whole groups, of which three lie on the guards. -/
theorem eanRenderEnds : Obligations.EanRenderEnds := by
  intro mw h pay s hn h12 hm hh
  have h13 := Spec.length_eanDigits h12
  have h9 := eanDigits_le_nine pay
  have hcount : Spec.tileCount (Spec.eanBits (Spec.eanDigits pay)).length = 19 := by
    rw [Spec.length_eanBits h13]
    rfl
  have hrefs := map_ref_toNat_specTiles (Spec.eanBits (Spec.eanDigits pay)) mw h
  rw [hcount] at hrefs
  refine ⟨_, _, congrArg responseOf (renEan13AnswersTheTiles mw h pay s hn h12 hm hh), hrefs.symm, by simp, ?_, ?_, ?_⟩
  · exact Spec.groupValue_eanBits_first h13 h9
  · exact Spec.groupValue_eanBits_tenth h13
  · exact Spec.groupValue_eanBits_last h13 h9

/-- Settles O47: the first four groups lie within the quiet zone and Start-Code-B, the last two behind Stop. -/
theorem c128RenderEnds : Obligations.C128RenderEnds := by
  intro mw h pay s hn hm hh
  obtain ⟨n, hcount⟩ : ∃ n, Spec.tileCount (Spec.c128Bits pay).length = n + 4 :=
    Nat.exists_eq_add_of_le' (by rw [Spec.length_c128Bits, Spec.tileCount]; omega)
  have hrefs := map_ref_toNat_specTiles (Spec.c128Bits pay) mw h
  refine ⟨_, _, congrArg responseOf (renC128AnswersTheTiles mw h pay s hn hm hh), hrefs.symm, ?count, ?first, ?last⟩
  case count => simp [Spec.tileCount, Spec.length_c128Bits]
  case first =>
    rw [← Spec.groupValue_c128Bits_begin pay, ← List.map_take, hcount, List.take_range, Nat.min_eq_left (by omega)]
    rfl
  case last =>
    have hzero (k : Nat) (hk : n + 2 ≤ k) : Spec.groupValue (Spec.c128Bits pay) k = 0 :=
      Spec.groupValue_c128Bits_end pay (by omega)
    have htail : (List.range (n + 4)).drop (n + 2) = [n + 2, n + 3] := by
      rw [List.range_succ, List.range_succ, List.append_assoc]
      exact List.drop_left' List.length_range
    rw [hcount, List.length_map, List.length_range, ← List.map_drop, show n + 4 - 2 = n + 2 from rfl, htail]
    simp only [List.map_cons, List.map_nil, hzero (n + 2) (by omega), hzero (n + 3) (by omega)]

end Machine

end Sys2Proof
end

