-- ==== Sys2Proof/Proofs/StringLiterals.lean ====
section
/-! PROOFS. The textual form of a request with a string payload (spec/30_encoding.md R87, R90). -/

namespace Sys2Proof.Machine

/-- An escape begins with a backslash. -/
theorem escapeAt_of_ne {c : Character} (hc : c.toNat ≠ 92) (rest : List Character) : escapeAt c rest = none := by
  rw [escapeAt]
  exact fun _ _ _ _ _ _ h92 => absurd h92 hc

/-- Without quotes and backslashes every character stands for its own code, up to the closing quote. -/
theorem readString_literal {s : List Character} (hs : ∀ c ∈ s, c.toNat ≠ 34 ∧ c.toNat ≠ 92) (tail : List Character) :
    readString 0 (s ++ codes "\"" ++ tail) = some (s, tail) := by
  induction s with
  | nil => rfl
  | cons c s ih =>
    obtain ⟨⟨hquote, hbackslash⟩, hs'⟩ := List.forall_mem_cons.mp hs
    rw [List.cons_append, List.cons_append, readString, if_neg hquote, escapeAt_of_ne hbackslash]
    simp only [ih hs']
    rfl

theorem readWord_chkC128 (tail : List Character) :
    readWord (codes "CHK.C128 \"" ++ tail) = (codes "CHK.C128", codes " \"" ++ tail) := by
  rfl

/-- A line of CHK.C128 without dimensions has the payload its literal reads as, and MW = H = 0. -/
theorem assemble_chkC128 {line s : List Character} (hread : readString 0 line = some (s, [])) :
    assemble (codes "CHK.C128 \"" ++ line) = buildRequest 0x21 0 0 (.chars s) := by
  have hlookup : stringMnemonics.lookup (codes "CHK.C128") = some (0x21, true) := by decide
  have hother : codes "CHK.C128" ≠ codes "COMPOSE" := by decide
  rw [assemble, readWord_chkC128]
  simp only [if_neg hother, hlookup]
  show (readString 0 line >>= fun x => _) = _
  rw [hread]
  rfl

/-- Settles O59: the literal is read back as it was written, and the request is what CHK.C128 is encoded as. -/
theorem stringLiteralsAssembleToTheirCodes : Obligations.StringLiteralsAssembleToTheirCodes := by
  intro s hn hs
  have hread : readString 0 (s ++ codes "\"") = some (s, []) := by simpa using readString_literal hs []
  rw [List.append_assoc, assemble_chkC128 hread]
  exact buildRequest_of_instr (i := .chkC128 0 0 s) hn

end Sys2Proof.Machine
end

