-- ==== Sys2Proof/Proofs/Steps.lean ====
section
/-! PROOFS. What a step can do (spec/70_reset_and_hazards.md R240, R241, R246), and that every response it delivers is
sound (R76, R77, R186, R213, R217). -/

namespace Sys2Proof.Machine

/-! ### Sound responses (R76, R77, R186) -/

/-- A packed draft is sound if its sequences fit the counts and an error's draft is the empty one. -/
theorem Draft.respond_sound {status : BitVec 2} {d : Draft} (hstatus : status ≠ 3) (hchecksum : d.checksum.toNat ≤ 102)
    (htext : d.text.length < 2 ^ 24) (hbits : d.bits.length < 2 ^ 32) (htiles : d.tiles.length < 2 ^ 32)
    (herror : status ≠ statusOk → d = Draft.empty)
    (hsize : ∀ t ∈ d.tiles, ∀ u ∈ d.tiles, Tile.wpx t = Tile.wpx u ∧ Tile.hpx t = Tile.hpx u) :
    (d.respond status).Sound := by
  obtain ⟨hzero, hzero'⟩ := d.respond_zero_bits status
  refine ⟨?_, hzero, hzero', ?_, ?_, ?_, ?_, fun hbad => ?_, hsize⟩
  · rwa [Draft.respond_status]
  · rw [Draft.respond_tlen]
    exact Nat.mod_eq_of_lt htext
  · rw [Draft.respond_blen]
    exact Nat.mod_eq_of_lt hbits
  · rw [Draft.respond_nt]
    exact Nat.mod_eq_of_lt htiles
  · rwa [Draft.respond_checksum]
  · rw [Draft.respond_status] at hbad
    obtain rfl := herror hbad
    exact ⟨Draft.respond_checksum _ _, rfl, rfl, rfl⟩

/-- An error carries nothing (R217). -/
theorem ErrorResult.response_sound (e : ErrorResult) : e.response.Sound :=
  Draft.respond_sound (by cases e <;> decide) (by decide) (by decide) (by decide) (by decide) (fun _ => rfl)
    (fun _ ht => nomatch ht)

/-- The results of CHK and ENC: no tiles. -/
theorem okResponse_sound_of_bits {checksum : Nat} {text : List Character} {bits : List Bit} (hchecksum : checksum ≤ 102)
    (htext : text.length ≤ Config.nmax) (hbits : bits.length ≤ 11 * Config.nmax + 55) :
    (okResponse checksum text bits []).Sound := by
  unfold Config.nmax at htext hbits
  exact Draft.respond_sound (by decide) (Nat.le_trans (Nat.mod_le _ _) hchecksum) (Nat.lt_succ_of_le htext)
    (Nat.lt_of_le_of_lt hbits (by decide)) (Nat.two_pow_pos 32) (absurd rfl) (fun _ ht => nomatch ht)

/-- The results of REN and COMPOSE: one descriptor per group, all of one size. -/
theorem okResponse_sound_of_tiles {checksum : Nat} {text : List Character} {p : List Bit} (hchecksum : checksum ≤ 102)
    (htext : text.length ≤ Config.nmax) (hp : p.length ≤ 11 * Config.nmax + 55) (mw h : Px) :
    (okResponse checksum text [] (Spec.tiles p mw h)).Sound := by
  have hcount : (Spec.tiles p mw h).length < 2 ^ 32 := by
    rw [length_specTiles, ← tileCount_toNat hp]
    exact BitVec.isLt _
  refine Draft.respond_sound (by decide) (Nat.le_trans (Nat.mod_le _ _) hchecksum) (Nat.lt_succ_of_le htext)
    (Nat.two_pow_pos 32) hcount (absurd rfl) fun t ht u hu => ?_
  obtain ⟨hwidth, hheight⟩ := dimensions_of_mem_specTiles ht
  obtain ⟨hwidth', hheight'⟩ := dimensions_of_mem_specTiles hu
  exact ⟨BitVec.eq_of_toNat_eq (hwidth.trans hwidth'.symm), hheight.trans hheight'.symm⟩

/-! ### What an instruction answers (R74, R213) -/

theorem c128Check_le (pay : List Character) : Spec.c128Check pay ≤ 102 :=
  Nat.le_of_lt_succ (Spec.c128Check_lt pay)

theorem length_eanText_le {pay : List Character} (h12 : 12 ≤ (Spec.digits pay).length) :
    (Spec.eanText pay).length ≤ Config.nmax := by
  rw [Spec.eanText, List.length_map, Spec.length_eanDigits h12]
  decide

/-- The contract of R74 in the spelling of the result statements. -/
theorem px_ne_zero {x : Px} (hx : 1 ≤ x.toNat) : x ≠ 0 := by
  rintro rfl
  cases hx

/-- Every instruction within the contract answers with a sound response. -/
theorem exec_answers {i : Instr} (hi : i.WellFormed) (hd : i.DimensionsOk) (s : State) :
    ∃ r : Response, r.Sound ∧ exec i s = .next (s.deliver r) := by
  have heancheck (ds : List Nat) : Spec.eanCheck ds ≤ 102 := Nat.le_trans (eanCheck_le ds) (by decide)
  cases i with
  | renEan13 mw h pay =>
    obtain ⟨hm, hh⟩ := hd rfl
    rcases Nat.lt_or_ge (Spec.digits pay).length 12 with hshort | h12
    · obtain ⟨-, -, hren⟩ := exec_ean_of_short hi hshort mw h s
      exact ⟨_, ErrorResult.response_sound _, hren (px_ne_zero hm) (px_ne_zero hh)⟩
    · exact ⟨_, okResponse_sound_of_tiles (heancheck _) (length_eanText_le h12) (length_eanBits_le h12) mw h,
        renEan13AnswersTheTiles mw h pay s hi h12 (px_ne_zero hm) (px_ne_zero hh)⟩
  | encEan13 mw h pay =>
    rcases Nat.lt_or_ge (Spec.digits pay).length 12 with hshort | h12
    · obtain ⟨-, henc, -⟩ := exec_ean_of_short hi hshort mw h s
      exact ⟨_, ErrorResult.response_sound _, henc⟩
    · exact ⟨_, okResponse_sound_of_bits (heancheck _) (length_eanText_le h12) (length_eanBits_le h12),
        encEan13AnswersThePattern mw h pay s hi h12⟩
  | chkEan13 mw h pay =>
    rcases Nat.lt_or_ge (Spec.digits pay).length 12 with hshort | h12
    · obtain ⟨hchk, -⟩ := exec_ean_of_short hi hshort mw h s
      exact ⟨_, ErrorResult.response_sound _, hchk⟩
    · exact ⟨_, okResponse_sound_of_bits (heancheck _) (length_eanText_le h12) (Nat.zero_le _),
        chkEan13AnswersCheckDigitAndText mw h pay s hi h12⟩
  | renC128 mw h pay =>
    obtain ⟨hm, hh⟩ := hd rfl
    exact ⟨_, okResponse_sound_of_tiles (c128Check_le pay) hi (length_c128Bits_le hi) mw h,
      renC128AnswersTheTiles mw h pay s hi (px_ne_zero hm) (px_ne_zero hh)⟩
  | encC128 mw h pay =>
    exact ⟨_, okResponse_sound_of_bits (c128Check_le pay) hi (length_c128Bits_le hi),
      encC128AnswersThePattern mw h pay s hi⟩
  | chkC128 mw h pay =>
    exact ⟨_, okResponse_sound_of_bits (c128Check_le pay) hi (Nat.zero_le _),
      chkC128AnswersCheckSymbolAndText mw h pay s hi⟩
  | compose mw h p =>
    obtain ⟨hm, hh⟩ := hd rfl
    exact ⟨_, okResponse_sound_of_tiles (Nat.zero_le _) (Nat.zero_le _) (Nat.le_trans hi (by decide)) mw h,
      composeAnswersTheTiles mw h p s hi (px_ne_zero hm) (px_ne_zero hh)⟩
  | unsupRen23 | unsupRen47 | unsupRen8F | unsupEnc23 | unsupEnc47 | unsupEnc8F | unsupChk23 | unsupChk47
  | unsupChk8F | unsupCompose1 | unsupCompose23 | unsupCompose47 | unsupCompose8F | unsupFn47 | unsupFn8B
  | unsupFnCF => exact ⟨_, ErrorResult.response_sound _, unsupported_eq s⟩

/-- Outside the contract REN and COMPOSE are refused (R74). -/
theorem exec_of_not_dimensionsOk {i : Instr} (hd : ¬ i.DimensionsOk) (s : State) :
    exec i s = .refused .zeroDimension := by
  obtain ⟨huses, hdims⟩ := Classical.not_imp.mp hd
  have hzero {mw h : Px} (hdims : ¬ (1 ≤ mw.toNat ∧ 1 ≤ h.toNat)) : mw = 0 ∨ h = 0 := by
    by_contra hpos
    obtain ⟨hm, hh⟩ := not_or.mp hpos
    exact hdims ⟨Nat.pos_of_ne_zero fun h0 => hm (BitVec.eq_of_toNat_eq h0),
      Nat.pos_of_ne_zero fun h0 => hh (BitVec.eq_of_toNat_eq h0)⟩
  cases i with
  | renEan13 | renC128 | compose => exact requireDimensions_of_zero (hzero hdims) _
  | _ => cases huses

/-- Settles O8: the response of each instruction is known (O21, O22, O29 to O31, O40 to O42, O49). -/
theorem everyInstructionInContractCompletes : Obligations.EveryInstructionInContractCompletes := by
  intro i s hi hd
  obtain ⟨r, -, hr⟩ := exec_answers hi hd s
  exact ⟨r, hr⟩

/-! ### What a step does (R240, R241, R246) -/

section Step

variable {s : State}

theorem step_of_reset (hreset : s.resetIn = true) : step s = .next s.afterReset := if_pos hreset

theorem step_of_idle (hrun : s.resetIn = false) (hreq : s.req = none) : step s = .next s := by
  simp [step, hrun, hreq]

theorem step_of_decode_ok {r : Request} {i : Instr} (hrun : s.resetIn = false) (hreq : s.req = some r)
    (hi : decode r = .ok i) : step s = exec i s := by
  simp [step, hrun, hreq, hi]

theorem step_of_payloadWidth {r : Request} (hrun : s.resetIn = false) (hreq : s.req = some r)
    (hwidth : decode r = .error .payloadWidth) : step s = .refused .payloadWidth := by
  simp [step, hrun, hreq, hwidth]

end Step

theorem wellFormed_of_decode {r : Request} {i : Instr} (hi : decode r = .ok i) : i.WellFormed := by
  obtain ⟨-, hop⟩ := decode_eq_ok hi
  obtain ⟨-, -, -, hpay⟩ := fields_of_decodeOp hop
  rw [Instr.WellFormed, hpay]
  exact decode_length_le hi

/-- Everything the step of a presented request can do: a decoded request is well formed, so it is answered with a sound
response or refused for its dimensions; one that does not decode is refused. -/
theorem step_request_cases {s : State} {r : Request} (hrun : s.resetIn = false) (hreq : s.req = some r) :
    (∃ rsp : Response, rsp.Sound ∧ step s = .next (s.deliver rsp)) ∨ ∃ q : Refusal, step s = .refused q := by
  cases hdecode : decode r with
  | ok i =>
    rw [step_of_decode_ok hrun hreq hdecode]
    by_cases hd : i.DimensionsOk
    · exact .inl (exec_answers (wellFormed_of_decode hdecode) hd s)
    · exact .inr ⟨_, exec_of_not_dimensionsOk hd s⟩
  | error e =>
    cases e with
    | lengthMismatch => exact .inr ⟨.lengthMismatch, by simp [step, hrun, hreq, hdecode]⟩
    | payloadWidth => exact .inr ⟨.payloadWidth, step_of_payloadWidth hrun hreq hdecode⟩

/-- Everything a step can do. -/
theorem step_cases (s : State) :
    (s.resetIn = true ∧ step s = .next s.afterReset) ∨
    (s.resetIn = false ∧ s.req = none ∧ step s = .next s) ∨
    (s.resetIn = false ∧ s.req ≠ none ∧
      ((∃ rsp : Response, rsp.Sound ∧ step s = .next (s.deliver rsp)) ∨ ∃ q : Refusal, step s = .refused q)) := by
  cases hrun : s.resetIn with
  | true => exact .inl ⟨rfl, step_of_reset hrun⟩
  | false =>
    cases hreq : s.req with
    | none => exact .inr (.inl ⟨rfl, rfl, step_of_idle hrun hreq⟩)
    | some r => exact .inr (.inr ⟨rfl, by simp, step_request_cases hrun hreq⟩)

/-- Settles O6: of the things a step can do, these are the ones that go on. -/
theorem stepAnswersOneRequestOrIdles : Obligations.StepAnswersOneRequestOrIdles := by
  intro s t h
  obtain ⟨hreset, hstep⟩ | ⟨hrun, hreq, hstep⟩ | ⟨hrun, hreq, ⟨r, -, hstep⟩ | ⟨q, hstep⟩⟩ := step_cases s
  all_goals cases h.symm.trans hstep
  · exact .inl ⟨hreset, rfl⟩
  · exact .inr (.inl ⟨hrun, hreq, rfl⟩)
  · exact .inr (.inr ⟨hrun, hreq, r, rfl, rfl, hrun⟩)

/-- Settles O7: no fault is among the things a step can do. -/
theorem noStepFaults : Obligations.NoStepFaults := by
  intro s f h
  obtain ⟨-, hstep⟩ | ⟨-, -, hstep⟩ | ⟨-, -, ⟨r, -, hstep⟩ | ⟨q, hstep⟩⟩ := step_cases s
  all_goals cases h.symm.trans hstep

/-- Settles O11: reset leaves no response, an idle step the old one, and a request gets a sound one. -/
theorem stepKeepsResponsesSound : Obligations.StepKeepsResponsesSound := by
  intro s t hs h
  obtain ⟨-, hstep⟩ | ⟨-, -, hstep⟩ | ⟨-, -, ⟨r, hr, hstep⟩ | ⟨q, hstep⟩⟩ := step_cases s
  all_goals cases h.symm.trans hstep
  · intro r hr
    cases hr
  · exact hs
  · intro r' hr'
    cases hr'
    exact hr

/-- Settles O12: no response is pending, so there is none to be unsound. -/
theorem resetResponseChannelIsSound : Obligations.ResetResponseChannelIsSound := by
  intro r hr
  cases hr

/-- Settles O4: reset is looked at first, then the decoder. -/
theorem stepRunsTheDecodedInstruction : Obligations.StepRunsTheDecodedInstruction :=
  fun _ _ _ => step_of_decode_ok

/-- Settles O19: with the right LEN the decoder comes to the width, which is that of the other kind. -/
theorem elementWidthMustFollowOperation : Obligations.ElementWidthMustFollowOperation := by
  intro s r hrun hreq hlen
  refine ⟨fun hop cs hpay => ?_, fun hop bs hpay => ?_⟩
  all_goals
    refine step_of_payloadWidth hrun hreq ?_
    rw [decode, if_pos hlen, hpay, decodeOp]
  · rw [if_pos hop]
  · rw [if_neg hop]

/-! ### Reset (R240, R241) -/

/-- Settles O1: the reset state has nothing on its channels. -/
theorem resetStateIsIdle : Obligations.ResetStateIsIdle := ⟨rfl, rfl, fun _ => rfl⟩

/-- Settles O2: the step is the reset, whatever was in progress. -/
theorem resetAbandonsTheTransaction : Obligations.ResetAbandonsTheTransaction :=
  fun s hreset => ⟨s.afterReset, step_of_reset hreset, rfl, rfl, rfl⟩

/-- Settles O3: after the reset the same request is presented, and its response does not depend on the state. -/
theorem resentRequestGetsItsResponse : Obligations.ResentRequestGetsItsResponse := by
  intro s t u r hreq hrun hstep hu
  obtain rfl : s.assertReset.afterReset = t := Host.Outcome.next.inj ((step_of_reset rfl).symm.trans hstep)
  obtain ⟨-, rfl⟩ := State.present_eq_some r hu
  exact responseOf_step_eq rfl rfl hrun hreq

/-! ### The palette (R25, R183) -/

/-- Settles O54: the fragments are computed from the table. -/
theorem tilePaletteIsComplete : Obligations.TilePaletteIsComplete := ⟨rfl, by decide⟩

end Sys2Proof.Machine
end
